-- ==== Sys2Proof/Word.lean ====
section
/-! DEFINITION. The two bit-vector types of the model: a unit and a command word (spec/00_scope.md R7, R8).
Both have the width of the largest legal block, W = 16; a block with a smaller W uses their low bits
(notes/assumptions/2.md). -/

namespace Sys2Proof

/-- A unit: what one slot, ENQ_DATA and DEQ_DATA hold (R7, R13). `W <= 16` of its bits exist. -/
abbrev Word := BitVec 16

/-- A command word `CMD` (R61). `W + 2 <= 18` of its bits exist. -/
abbrev Command := BitVec 18

end Sys2Proof
end

