-- ==== Sys2Proof/Config.lean ====
section
/-! DEFINITION. What is fixed when a block is built (spec/00_scope.md R6 to R9, spec/70_reset_and_hazards.md R153, R158),
the input ports (spec/30_encoding.md R60), and the free draw of the inputs of a cycle. -/

namespace Sys2Proof

/-- Which of the spec's instances a block is (R53, R117): it decides which producer and which consumer are the
block's own. -/
inductive Role where
  /-- The one instance of the echo configuration: one peripheral fills and drains it. -/
  | echo
  /-- Of the bridge: filled by the async receive path, drained by the sync transmit path. -/
  | asyncToSync
  /-- Of the bridge: filled by the sync receive path, drained by the async transmit path. -/
  | syncToAsync
deriving DecidableEq, Repr

/-- The parameters a block is built with: CAP (R6), W (R7), how many agents drive each of its two request
ports (R158), and which instance it is (R53). -/
structure Params where
  /-- CAP, the usable capacity (R6). -/
  cap : Nat
  /-- W, the unit width in bits (R7). -/
  w : Nat
  /-- Agents that drive ENQ_REQ and ENQ_DATA (R136, R158). -/
  producers : Nat
  /-- Agents that drive DEQ_REQ (R136, R158). -/
  consumers : Nat
  /-- The instance the block is (R53, R117; notes/assumptions/3.md). -/
  role : Role
deriving DecidableEq, Repr

/-- The defaults of R6 and R7, with one agent on each port (R1), as a single instance. -/
def Params.default : Params := { cap := 16, w := 16, producers := 1, consumers := 1, role := .echo }

/-- The values R9 accepts: `CAP >= 1` and `9 <= W <= 16`. -/
abbrev Params.Legal (p : Params) : Prop := 1 ≤ p.cap ∧ 9 ≤ p.w ∧ p.w ≤ 16

/-- Exactly one agent a port (R158). -/
abbrev Params.Spsc (p : Params) : Prop := p.producers = 1 ∧ p.consumers = 1

/-- `ceil(log2 n)`, with 0 for n = 0. -/
def ceilLog2 (n : Nat) : Nat := if n ≤ 1 then 0 else Nat.log2 (n - 1) + 1

/-- HEAD_W (R8). -/
def Params.headW (p : Params) : Nat := max 1 (ceilLog2 p.cap)

/-- COUNT_W (R8). -/
def Params.countW (p : Params) : Nat := ceilLog2 (p.cap + 1)

/-- The width of a command word (R8, R61). -/
def Params.commandW (p : Params) : Nat := p.w + 2

/-- The input ports sampled in one cycle (R60). CLK is not among them: one step of the model is one cycle. -/
structure Input where
  /-- RST, active high (R150). -/
  rst : Bool
  /-- ENQ_REQ, the producer's (R60). -/
  enqReq : Bool
  /-- ENQ_DATA, the producer's; its low W bits exist (R60). -/
  enqData : Word
  /-- DEQ_REQ, the consumer's (R60). -/
  deqReq : Bool
  /-- TX_READY, the consumer peripheral's transmit-ready condition (R112). -/
  txReady : Bool
deriving DecidableEq, Repr, Inhabited

/-- FREE VALUE: what an instance's own producer, consumer and environment present in a cycle that no schedule lists,
by the instance (R53) and the number of the cycle. R90 leaves the order of commands to the environment, R151 lets a reset come in any cycle, and R112 (D22) lets
TX_READY take any value in any cycle under no law; nothing ties the draws of two instances together. It has no body: nothing can evaluate it
(notes/assumptions/4.md). -/
opaque Config.freeInput : Role → Nat → Input

end Sys2Proof
end

