-- ==== Sys2Proof/Syntax.lean ====
section
/-! DEFINITION. The instructions: one constructor per row of spec/opcode_table.json. -/

namespace Sys2Proof

/-- The operations of spec/30_encoding.md R64, and the status row IS_EMPTY (R65), which no command word selects:
it stands for the pseudo-instruction of R70. -/
inductive Instr where
  /-- No request (R82). -/
  | nop
  /-- Dequeue one unit (R84). -/
  | deq
  /-- Enqueue the unit `v` (R83). -/
  | enq (v : Word)
  /-- Enqueue the unit `v` and dequeue, in the same cycle (R85). -/
  | enqdeq (v : Word)
  /-- A cycle with no request in which the EMPTY output is read (R70, R86). -/
  | isEmpty
deriving DecidableEq, Repr

end Sys2Proof
end

