-- ==== Sys2Proof/WellFormed.lean ====
section
/-! DEFINITION. Which instructions a block of unit width `w` has (spec/30_encoding.md R68, R69: every unit operand is
below 2^W). -/

namespace Sys2Proof

/-- A unit of a block of width `w`: its bits from `w` up are 0 (R7). -/
abbrev Word.Fits (w : Nat) (v : Word) : Prop := v.toNat < 2 ^ w

/-- `i` is an instruction of a block of unit width `w` (R68, R69). -/
def Instr.wf (w : Nat) (i : Instr) : Bool :=
  match i with
  | .nop => true
  | .deq => true
  | .enq v => decide (Word.Fits w v)
  | .enqdeq v => decide (Word.Fits w v)
  | .isEmpty => true

end Sys2Proof
end

