-- ==== Sys2Proof/Decode.lean ====
section
/-! DEFINITION. The command word: gathered from the ports (spec/30_encoding.md R61), decoded (R64, R68) and encoded
(R68). -/

namespace Sys2Proof

/-- `CMD = {ENQ_DATA, ENQ_REQ, DEQ_REQ}` (R61). -/
def commandOf (data : Word) (enqReq deqReq : Bool) : Command :=
  data ++ BitVec.ofBool enqReq ++ BitVec.ofBool deqReq

/-- The command word an input presents (R61). -/
def Input.cmd (x : Input) : Command := commandOf x.enqData x.enqReq x.deqReq

/-- The ports that present the command word `c` in a cycle with the given RST and TX_READY (R61). -/
def Input.ofCommand (c : Command) (rst txReady : Bool) : Input :=
  { rst := rst, enqReq := c.getLsbD 1, enqData := c.extractLsb' 2 16, deqReq := c.getLsbD 0, txReady := txReady }

/-- The unit operand `CMD[W+1:2]`: the `w` bits from bit 2 up, in the low bits of a `Word` (R63). -/
def unitField (w : Nat) (c : Command) : Word := (c.extractLsb' 2 w).setWidth 16

/-- The operation a command word selects by `CMD[1:0]`, for a block of unit width `w` (R64, R68). Total: every
word is legal (R66). -/
def decode (w : Nat) (c : Command) : Instr :=
  match c.getLsbD 1, c.getLsbD 0 with
  | false, false => .nop
  | false, true => .deq
  | true, false => .enq (unitField w c)
  | true, true => .enqdeq (unitField w c)

/-- Why a number is no command word. -/
inductive DecodeError where
  /-- It has a bit set at or above bit `W + 2`: a command word is exactly `W + 2` bits (R67). -/
  | widerThanCommand
deriving DecidableEq, Repr

/-- `decode` of a number: refused by name if it does not fit in the `w + 2` bits of a command word (R67). -/
def decodeNat (w c : Nat) : Except DecodeError Instr :=
  if c < 2 ^ (w + 2) then .ok (decode w (BitVec.ofNat 18 c)) else .error .widerThanCommand

/-- The decoder on a word of spec/opcode_table.json, which gives the words of the default block, W = 16. -/
def decodeTableWord (nbits w : Nat) : Option Instr :=
  match decodeNat 16 (w % 2 ^ nbits) with
  | .ok i => some i
  | .error _ => none

/-- The command word of an instruction (R68). IS_EMPTY has no word of its own: it expands to NOP (R70). -/
def encode (i : Instr) : Command :=
  match i with
  | .nop => 0
  | .deq => 1
  | .enq v => (v.setWidth 18 <<< 2) ||| 2
  | .enqdeq v => (v.setWidth 18 <<< 2) ||| 3
  | .isEmpty => 0

/-- The operation of R64 that an instruction's command word selects: itself, and NOP for IS_EMPTY (R65, R70). -/
def Instr.command (i : Instr) : Instr :=
  match i with
  | .nop => .nop
  | .deq => .deq
  | .enq v => .enq v
  | .enqdeq v => .enqdeq v
  | .isEmpty => .nop

end Sys2Proof
end

