-- ==== Sys2Proof/Machine/State.lean ====
section
/-! DEFINITION. The state of one block (spec/10_state.md R20 to R34), the outputs of a cycle (spec/30_encoding.md R60),
and the reasons a step can stop. -/

namespace Sys2Proof.Machine

/-- The faults of the block: none. No operation raises an exception, fault or trap (spec/60_exceptions.md R130). -/
inductive Fault : Type
deriving DecidableEq, Repr

/-- What the spec tells a model to refuse, and the host's rejection by name. -/
inductive Refusal where
  /-- Raised by `exec` for an instruction that has no meaning yet. Safe: nothing is claimed of it. -/
  | notModelled (mnemonic : String)
  /-- Raised by every cycle of a block whose CAP or W is out of range (R9, U6). Safe. -/
  | badParameters
  /-- Raised by every cycle of a block with other than one agent on a port (R158, U7). Safe. -/
  | brokenSpscContract
  /-- Raised by a cycle with RST = 0 before the first reset edge (R152, U2). Safe. -/
  | beforeFirstReset
  /-- Raised by a cycle with RST = 0 in a state with `head >= CAP` or `count > CAP` (U3). Safe. -/
  | stateOutOfRange
deriving DecidableEq, Repr

/-- The output ports of one cycle (R60). -/
structure Outputs where
  /-- ENQ_OK (R81). -/
  enqOk : Bool
  /-- DEQ_OK (R81). -/
  deqOk : Bool
  /-- DEQ_DATA (R84). -/
  deqData : Word
  /-- EMPTY (R86). -/
  empty : Bool
  /-- TXIE (R113). -/
  txie : Bool
  /-- TX_IRQ (R112). -/
  txIrq : Bool
deriving DecidableEq, Repr

/-- One block, the inputs that await it, and the outputs of its last cycle. -/
structure State where
  /-- What the block was built with (R6, R7, R53, R158); no step writes it. -/
  params : Params
  /-- `slot[0..CAP-1]` (R23). -/
  slots : List Word
  /-- The slot index of the oldest unit (R21). -/
  head : Nat
  /-- How many units are queued (R22). -/
  count : Nat
  /-- The transmit-interrupt-enable bit (R28). -/
  txie : Bool
  /-- The ghost of R152: a reset edge has come. -/
  initialized : Bool
  /-- The model's own: the inputs of the coming cycles, next cycle first. -/
  schedule : List Input
  /-- The model's own: the number of edges so far, the index of a free draw. -/
  edges : Nat
  /-- The model's own: the output ports in the cycle the last step ran. Outputs, not state (R31). -/
  outputs : Outputs
deriving DecidableEq, Repr

/-- The outputs State.reset shows: those of a cycle with RST = 1 on a block already reset (R150; notes/assumptions/5.md). -/
def Outputs.afterReset : Outputs :=
  { enqOk := false, deqOk := false, deqData := 0, empty := true, txie := false, txIrq := false }

/-- A block right after a reset edge, with any parameters and any slots (R34). -/
def State.afterReset (p : Params) (slots : List Word) : State :=
  { params := p, slots := slots, head := 0, count := 0, txie := false, initialized := true,
    schedule := [], edges := 0, outputs := Outputs.afterReset }

/-- The default block right after a reset edge (R34). R34 leaves the slots unspecified: 0 is the model's choice
(notes/assumptions/1.md). -/
def State.reset : State := State.afterReset Params.default (List.replicate 16 0)

/-- A block before its first reset edge: slots, `head`, `count` and `txie` may hold any values (R152). -/
def State.powerOn (p : Params) (slots : List Word) (head count : Nat) (txie : Bool) : State :=
  { State.afterReset p slots with head := head, count := count, txie := txie, initialized := false }

/-- The state with the inputs of the coming cycles replaced: what a program of spec/95_test_vectors.md presents. -/
def State.withSchedule (s : State) (xs : List Input) : State := { s with schedule := xs }

end Sys2Proof.Machine
end

