-- ==== Sys2Proof/Machine/Flags.lean ====
section
/-! DEFINITION. The status values and the gating logic (spec/10_state.md R26, R27; spec/41_irq_gating.md R110 to R113). -/

namespace Sys2Proof.Machine

/-- `b2n` (R10). -/
def b2n (b : Bool) : Nat := if b then 1 else 0

/-- EMPTY (R26, R86). -/
def emptyFlag (s : State) : Bool := s.count == 0

/-- The internal condition full (R27). -/
def fullFlag (s : State) : Bool := s.count == s.params.cap

/-- `txie'` of a cycle with RST = 0 (R110): written if an enqueue was accepted or a dequeue requested. -/
def txieNext (enqOk deqReq : Bool) (countNext : Nat) (txie : Bool) : Bool :=
  if enqOk || deqReq then decide (countNext ≠ 0) else txie

/-- TX_IRQ (R112). -/
def txIrqFlag (s : State) (txReady : Bool) : Bool := s.txie && txReady

end Sys2Proof.Machine
end

