-- ==== Sys2Proof/Machine/Operands.lean ====
section
/-! DEFINITION. Reads and writes of the slot array, and the indices they use (spec/10_state.md R21 to R25). -/

namespace Sys2Proof.Machine

/-- `tail(s)`: the slot the next accepted enqueue writes (R24). -/
def tail (s : State) : Nat := (s.head + s.count) % s.params.cap

/-- The slot index after `head` (R21). -/
def headNext (s : State) : Nat := (s.head + 1) % s.params.cap

/-- `SlotRead(i)` (R11, R23). -/
def slotRead (s : State) (i : Nat) : Word := s.slots.getD i 0

/-- `SlotWrite(i, v)`: the slot array it leaves (R11, R23). -/
def slotWrite (s : State) (i : Nat) (v : Word) : List Word := s.slots.set i v

/-- `Q(s)`: the queued units, oldest first (R25). -/
def queue (s : State) : List Word :=
  (List.range s.count).map fun k => slotRead s ((s.head + k) % s.params.cap)

end Sys2Proof.Machine
end

