-- ==== Sys2Proof/Machine/Ops.lean ====
section
/-! DEFINITION. The operations every meaning is made of: the inputs of a cycle, what the queue core does in it
(spec/40_queue_ops.md R82 to R85), the clock edge (R80, R110), the reset edge (spec/70_reset_and_hazards.md R150) and the
refusals the spec asks of a model. There is no exception to take and none to return from (R130, R134, R135). -/

namespace Sys2Proof.Machine

/-- The inputs of the cycle about to run: the schedule's first entry, else a free draw of the instance's own
(R53, R60, R90; notes/assumptions/4.md). -/
def sample (s : State) : Input := s.schedule.headD (Config.freeInput s.params.role s.edges)

/-- What a block that was built wrong is refused for (R9, R158). -/
def buildRefusal (p : Params) : Option Refusal :=
  if ¬ p.Legal then some .badParameters
  else if ¬ p.Spsc then some .brokenSpscContract
  else none

/-- What a cycle with RST = 0 is refused for: the build (R9, R158), no reset edge so far (R152), an index out of
range (U3). -/
def cycleRefusal (s : State) : Option Refusal :=
  match buildRefusal s.params with
  | some r => some r
  | none =>
    if s.initialized = false then some .beforeFirstReset
    else if s.head < s.params.cap ∧ s.count ≤ s.params.cap then none
    else some .stateOutOfRange

/-- What the queue core does in a cycle: the next slots, `head` and `count`, and its three outputs (R80, R81). -/
structure CoreResult where
  slots : List Word
  head : Nat
  count : Nat
  enqOk : Bool
  deqOk : Bool
  deqData : Word
deriving DecidableEq, Repr

/-- No request: nothing changes, default outputs (R81, R82). -/
def coreIdle (s : State) : CoreResult :=
  { slots := s.slots, head := s.head, count := s.count, enqOk := false, deqOk := false, deqData := 0 }

/-- An enqueue: accepted at the tail if the queue is not full, else dropped (R83). -/
def coreEnqueue (s : State) (v : Word) : CoreResult :=
  if s.count < s.params.cap then
    { coreIdle s with slots := slotWrite s (tail s) v, count := s.count + 1, enqOk := true }
  else coreIdle s

/-- A dequeue: the oldest unit if there is one, else "empty" (R84). -/
def coreDequeue (s : State) : CoreResult :=
  if 0 < s.count then
    { coreIdle s with head := headNext s, count := s.count - 1, deqOk := true, deqData := slotRead s s.head }
  else coreIdle s

/-- Both requests in one cycle, each judged on the state at its start (R85). -/
def coreBoth (s : State) (v : Word) : CoreResult :=
  let e := coreEnqueue s v
  let d := coreDequeue s
  { slots := e.slots, head := d.head, count := s.count + b2n e.enqOk - b2n d.deqOk,
    enqOk := e.enqOk, deqOk := d.deqOk, deqData := d.deqData }

/-- The outputs of a cycle, from the state at its start and its inputs (R60, R81, R86, R112, R113). -/
def outputsOf (s : State) (enqOk deqOk : Bool) (deqData : Word) : Outputs :=
  { enqOk := enqOk, deqOk := deqOk, deqData := deqData, empty := emptyFlag s, txie := s.txie,
    txIrq := txIrqFlag s (sample s).txReady }

/-- The edge that ends a cycle with RST = 0: the core's result and the gating logic's `txie'` take effect
together (R43, R80, R110), and the cycle's inputs are used up. -/
def clockEdge (s : State) (deqReq : Bool) (r : CoreResult) : State :=
  { s with
    slots := r.slots
    head := r.head
    count := r.count
    txie := txieNext r.enqOk deqReq r.count s.txie
    schedule := s.schedule.tail
    edges := s.edges + 1
    outputs := outputsOf s r.enqOk r.deqOk r.deqData }

/-- The edge that ends a cycle with RST = 1: the reset values of R34, the slots unchanged (R150), and `initialized`
set (R152). -/
def resetEdge (s : State) : State :=
  { s with
    head := 0
    count := 0
    txie := false
    initialized := true
    schedule := s.schedule.tail
    edges := s.edges + 1
    outputs := outputsOf s false false 0 }

/-- One cycle with RST = 0 in which the core does `r` (R80). -/
def runCycle (s : State) (deqReq : Bool) (r : CoreResult) : Host.Outcome State Fault Refusal :=
  match cycleRefusal s with
  | some e => .refused e
  | none => .next (clockEdge s deqReq r)

/-- One cycle with RST = 1, whatever its requests (R150), in any state of a rightly built block (R151, R152). -/
def resetCycle (s : State) : Host.Outcome State Fault Refusal :=
  match buildRefusal s.params with
  | some e => .refused e
  | none => .next (resetEdge s)

end Sys2Proof.Machine
end

