-- ==== Sys2Proof/Machine/Queue.lean ====
section
/-! DEFINITION. The meanings of the four commands (spec/40_queue_ops.md R82 to R85): each is one cycle with RST = 0. -/

namespace Sys2Proof.Machine

/-- NOP (R82). -/
def execNop (s : State) : Host.Outcome State Fault Refusal := runCycle s false (coreIdle s)

/-- ENQ v (R83). -/
def execEnq (v : Word) (s : State) : Host.Outcome State Fault Refusal := runCycle s false (coreEnqueue s v)

/-- DEQ (R84). -/
def execDeq (s : State) : Host.Outcome State Fault Refusal := runCycle s true (coreDequeue s)

/-- ENQDEQ v (R85). -/
def execEnqdeq (v : Word) (s : State) : Host.Outcome State Fault Refusal := runCycle s true (coreBoth s v)

end Sys2Proof.Machine
end

