-- ==== Sys2Proof/Machine/Status.lean ====
section
/-! DEFINITION. The meaning of the status row IS_EMPTY (spec/40_queue_ops.md R86). -/

namespace Sys2Proof.Machine

/-- IS_EMPTY (R86): a cycle with no request (R70); the EMPTY output, as in every cycle, is `count = 0` at its start. -/
def execIsEmpty (s : State) : Host.Outcome State Fault Refusal := runCycle s false (coreIdle s)

end Sys2Proof.Machine
end

