-- ==== Sys2Proof/Machine/Dispatch.lean ====
section
/-! DEFINITION. One arm per instruction (spec/30_encoding.md R64, R65). `exec i s` is the whole of one cycle with
RST = 0 in which the block does `i`. -/

namespace Sys2Proof.Machine

/-- The cycle with RST = 0 in which the block does `i` (R80). -/
def exec (i : Instr) (s : State) : Host.Outcome State Fault Refusal :=
  match i with
  | .nop => Sys2Proof.Machine.execNop s
  | .deq => Sys2Proof.Machine.execDeq s
  | .enq v => Sys2Proof.Machine.execEnq v s
  | .enqdeq v => Sys2Proof.Machine.execEnqdeq v s
  | .isEmpty => Sys2Proof.Machine.execIsEmpty s

end Sys2Proof.Machine
end

