-- ==== Sys2Proof/Machine/Step.lean ====
section
/-! DEFINITION. One step is one clock cycle (spec/40_queue_ops.md R80, spec/70_reset_and_hazards.md R150). -/

namespace Sys2Proof.Machine

/-- One cycle: RST overrides every request (R133, R150); else the command on the ports is decoded and done (R80). -/
def step (s : State) : Host.Outcome State Fault Refusal :=
  if (sample s).rst then resetCycle s else exec (decode s.params.w (sample s).cmd) s

/-- `s` with the command word `w` on its ports in the next cycle, RST = 0, and TX_READY as it would have been.
The block has no fetch (R30): a command is stored nowhere else (notes/assumptions/7.md). -/
def State.withFetchWord (s : State) (nbits w : Nat) : State :=
  { s with
    schedule := Input.ofCommand (BitVec.ofNat 18 (w % 2 ^ nbits)) false (sample s).txReady :: s.schedule.tail }

end Sys2Proof.Machine
end

