-- ==== Sys2Proof/Machine/Assembler.lean ====
section
/-! DEFINITION. The test-program syntax of spec/30_encoding.md R69 and R70: statements, the cycles they stand for, and
the reading of a line of text. A line is a list of characters, so that the kernel can read one. -/

namespace Sys2Proof.Machine

/-- A statement of R69: a command or a pseudo-instruction of R70, its immediates as written. -/
inductive Stmt where
  | nop
  | deq
  | enq (imm : Nat)
  | enqdeq (imm : Nat)
  | isEmpty
  | reset
  | fill (n v0 : Nat)
  | drain (n : Nat)
deriving DecidableEq, Repr

/-- Why the assembler refuses a line. -/
inductive AsmError where
  /-- The text is no statement of R69. -/
  | notAStatement
  /-- An immediate is neither `0x` with hexadecimal digits nor decimal (R69). -/
  | notANumber
  /-- An immediate is `2^W` or more (R69): refused, never truncated. -/
  | immediateTooWide
deriving DecidableEq, Repr

/-- One cycle that presents the instruction `i`, RST = 0 (R69: one line is one cycle). -/
def cycleOf (i : Instr) (txReady : Bool) : Input := Input.ofCommand (encode i) false txReady

/-- The cycle of RESET: RST = 1, CMD = 0 (R70). -/
def cycleReset (txReady : Bool) : Input := Input.ofCommand 0 true txReady

/-- The instruction with the immediate `imm` as its unit, refused if `imm` is `2^w` or more (R69). -/
def withUnit (w imm : Nat) (mk : Word → Instr) : Except AsmError Instr :=
  if imm < 2 ^ w then .ok (mk (BitVec.ofNat 16 imm)) else .error .immediateTooWide

/-- `ENQ v0, ENQ v0+1, …`: `n` cycles of one TX_READY (notes/assumptions/17.md), refused if a value is `2^w` or more
(R70); no cycle if `n` is 0 (notes/assumptions/18.md). -/
def assembleFill (w : Nat) (txReady : Bool) : Nat → Nat → Except AsmError (List Input)
  | 0, _ => .ok []
  | n + 1, v0 =>
    match withUnit w v0 .enq, assembleFill w txReady n (v0 + 1) with
    | .ok i, .ok rest => .ok (cycleOf i txReady :: rest)
    | .error e, _ => .error e
    | .ok _, .error e => .error e

/-- The cycles of a statement, for a block of unit width `w`, with TX_READY as the program's column gives it
(R69, R70). DESIGN CHOICE (notes/assumptions/17.md): the column holds one TX_READY for a statement, so all `n` cycles
of a FILL or a DRAIN have that one value. DESIGN CHOICE (notes/assumptions/18.md): a count `n` has no bound of its own,
and 0 is no cycle. -/
def assemble (w : Nat) (txReady : Bool) (st : Stmt) : Except AsmError (List Input) :=
  match st with
  | .nop => .ok [cycleOf .nop txReady]
  | .deq => .ok [cycleOf .deq txReady]
  | .enq imm => (withUnit w imm .enq).map fun i => [cycleOf i txReady]
  | .enqdeq imm => (withUnit w imm .enqdeq).map fun i => [cycleOf i txReady]
  | .isEmpty => .ok [cycleOf .isEmpty txReady]
  | .reset => .ok [cycleReset txReady]
  | .fill n v0 => assembleFill w txReady n v0
  | .drain n => .ok (List.replicate n (cycleOf .deq txReady))

/-- TX_READY of a line: its entry in the column of the program's table, 0 where it has none (R69). -/
def columnEntry (entry : Option Bool) : Bool := entry.getD false

/-- The cycles of a program's lines, one line after another; refused whole, for the first line that is refused
(notes/assumptions/8.md). -/
def joinLines : List (Except AsmError (List Input)) → Except AsmError (List Input)
  | [] => .ok []
  | .ok xs :: rest => (joinLines rest).map (xs ++ ·)
  | .error e :: _ => .error e

/-- A program: its statements in order, each with its entry in the TX_READY column (R69). -/
def assembleProgram (w : Nat) (program : List (Stmt × Option Bool)) : Except AsmError (List Input) :=
  joinLines (program.map fun l => assemble w (columnEntry l.2) l.1)

/-- The line without its comment: what stands before the first `;` (R69). DESIGN CHOICE (notes/assumptions/19.md): any
text may be a comment. -/
def dropComment (line : List Char) : List Char := line.takeWhile (· != ';')

/-- The line without its label: what stands after the first `:`, the whole line if there is none (R69). DESIGN CHOICE
(notes/assumptions/19.md): any text before the first `:` may be a label, the empty one and one with blanks too. -/
def dropLabel (line : List Char) : List Char :=
  match line.dropWhile (· != ':') with
  | [] => line
  | _ :: rest => rest

/-- The words of a line: runs of characters between spaces and tabs, and each comma by itself
(notes/assumptions/8.md). `word` holds the word being read, last character first. -/
def wordsFrom (word : List Char) : List Char → List (List Char)
  | [] => if word.isEmpty then [] else [word.reverse]
  | c :: cs =>
    if c == ' ' || c == '\t' then
      if word.isEmpty then wordsFrom [] cs else word.reverse :: wordsFrom [] cs
    else if c == ',' then
      if word.isEmpty then [','] :: wordsFrom [] cs else word.reverse :: [','] :: wordsFrom [] cs
    else wordsFrom (c :: word) cs

/-- The value of a digit, hexadecimal in either case. -/
def digitValue (c : Char) : Option Nat :=
  let n := c.toNat
  if 48 ≤ n ∧ n ≤ 57 then some (n - 48)
  else if 65 ≤ n ∧ n ≤ 70 then some (n - 55)
  else if 97 ≤ n ∧ n ≤ 102 then some (n - 87)
  else none

/-- Digits read in a base, after the value `acc` of those before them; a digit not below the base is refused. -/
def digitsFrom (base acc : Nat) : List Char → Option Nat
  | [] => some acc
  | c :: cs =>
    match digitValue c with
    | some d => if d < base then digitsFrom base (acc * base + d) cs else none
    | none => none

/-- `imm ::= '0x' hexdigits | decimal` (R69), with at least one digit. -/
def parseImm (word : List Char) : Except AsmError Nat :=
  match word with
  | [] => .error .notANumber
  | '0' :: 'x' :: [] => .error .notANumber
  | '0' :: 'x' :: d :: ds => match digitsFrom 16 0 (d :: ds) with
    | some n => .ok n
    | none => .error .notANumber
  | d :: ds => match digitsFrom 10 0 (d :: ds) with
    | some n => .ok n
    | none => .error .notANumber

/-- The statement that the words of a line spell: mnemonics in upper case (R69, R70). DESIGN CHOICE
(notes/assumptions/20.md): a raw cycle as in line c3 of program P4 fits no production of R69 and is refused. -/
def parseWords (ws : List (List Char)) : Except AsmError Stmt :=
  match ws with
  | [['N', 'O', 'P']] => .ok .nop
  | [['D', 'E', 'Q']] => .ok .deq
  | [['E', 'N', 'Q'], a] => (parseImm a).map .enq
  | [['E', 'N', 'Q', 'D', 'E', 'Q'], a] => (parseImm a).map .enqdeq
  | [['I', 'S', '_', 'E', 'M', 'P', 'T', 'Y']] => .ok .isEmpty
  | [['R', 'E', 'S', 'E', 'T']] => .ok .reset
  | [['F', 'I', 'L', 'L'], n, [','], v] =>
    match parseImm n, parseImm v with
    | .ok n, .ok v => .ok (.fill n v)
    | .error e, _ => .error e
    | .ok _, .error e => .error e
  | [['D', 'R', 'A', 'I', 'N'], n] => (parseImm n).map .drain
  | _ => .error .notAStatement

/-- `line ::= [label ':'] stmt [';' comment]` (R69). -/
def parseLine (line : List Char) : Except AsmError Stmt :=
  parseWords (wordsFrom [] (dropLabel (dropComment line)))

/-- A program as text: its lines in order, each with its entry in the TX_READY column (R69). -/
def assembleText (w : Nat) (lines : List (List Char × Option Bool)) : Except AsmError (List Input) :=
  joinLines (lines.map fun l => (parseLine l.1).bind (assemble w (columnEntry l.2)))

end Sys2Proof.Machine
end

