-- ==== Sys2Proof/Machine/Instances.lean ====
section
/-! DEFINITION. The configurations of the block: the bridge, two instances that share no state and whose producers and
consumers are their own (spec/20_memory.md R53, spec/60_exceptions.md R137), the echo, one instance, a `State`; and
whose transmit enable each instance's TXIE is (spec/41_irq_gating.md R117). -/

namespace Sys2Proof.Machine

/-- The same block as the instance `r`: the free draws of its inputs are then that instance's own (R53). -/
def State.inRole (s : State) (r : Role) : State := { s with params := { s.params with role := r } }

/-- The two queues of the bridge, one per direction (R53, R117). -/
structure Bridge where
  /-- Filled by the async receive path, drained by the sync transmit path (R117). -/
  asyncToSync : State
  /-- Filled by the sync receive path, drained by the async transmit path (R117). -/
  syncToAsync : State
deriving DecidableEq, Repr

/-- Both queues right after a reset edge (R34). -/
def Bridge.reset : Bridge :=
  { asyncToSync := State.reset.inRole .asyncToSync, syncToAsync := State.reset.inRole .syncToAsync }

/-- The sync peripheral's transmit-interrupt-enable: the TXIE of the queue it drains (R117). -/
def Bridge.syncTxEnable (b : Bridge) : Bool := b.asyncToSync.txie

/-- The async peripheral's transmit-interrupt-enable: the TXIE of the queue it drains (R117). -/
def Bridge.asyncTxEnable (b : Bridge) : Bool := b.syncToAsync.txie

/-- The transmit-interrupt-enable of the echo's one peripheral: the TXIE of its one queue, which the same peripheral
fills and drains (R117). -/
def State.echoTxEnable (s : State) : Bool := s.txie

/-- One cycle of both instances, each in its own role, so with its own producer and consumer (R53); a cycle that
either refuses is refused, the first one's reason first (one clock, an RST of its own for each:
notes/assumptions/15.md). -/
def Bridge.step (b : Bridge) : Host.Outcome Bridge Fault Refusal :=
  match Machine.step (b.asyncToSync.inRole .asyncToSync), Machine.step (b.syncToAsync.inRole .syncToAsync) with
  | .next a, .next c => .next { asyncToSync := a, syncToAsync := c }
  | .refused r, _ => .refused r
  | .fault r, _ => .fault r
  | .next _, .refused r => .refused r
  | .next _, .fault r => .fault r

end Sys2Proof.Machine
end

