-- ==== Sys2Proof/Safety.lean ====
section
/-! DEFINITION. What claims speak of: states that can run, the invariant, the trace of a run, and the spec's own
whole-cycle function (spec/40_queue_ops.md R87) to hold the step against. -/

namespace Sys2Proof.Machine

/-- A state whose next cycle with RST = 0 the spec gives a meaning: a rightly built block (R9, R158), reset at least
once (R152), its indices in range (U3). -/
structure Ready (s : State) : Prop where
  legal : s.params.Legal
  spsc : s.params.Spsc
  initialized : s.initialized = true
  head_lt : s.head < s.params.cap
  count_le : s.count ≤ s.params.cap

/-- The slot array is what R23 says: CAP registers of W bits. -/
structure Shaped (s : State) : Prop where
  length : s.slots.length = s.params.cap
  fits : ∀ v ∈ s.slots, Word.Fits s.params.w v

/-- The invariant of R33 and R111, with the shape of the slot array. -/
structure BlockInv (s : State) : Prop where
  ready : Ready s
  shaped : Shaped s
  txie_eq : s.txie = decide (s.count ≠ 0)

/-- No field of the block itself differs; the model's own fields may. -/
structure SameBlock (s t : State) : Prop where
  params : t.params = s.params
  slots : t.slots = s.slots
  head : t.head = s.head
  count : t.count = s.count
  txie : t.txie = s.txie
  initialized : t.initialized = s.initialized

/-- `t` follows `s` by one cycle as far as the environment goes: the cycle's inputs are used up. -/
structure InputsAdvance (s t : State) : Prop where
  schedule : t.schedule = s.schedule.tail
  edges : t.edges = s.edges + 1

/-- One cycle as the ports show it. -/
structure Event where
  input : Input
  outputs : Outputs
deriving DecidableEq, Repr

/-- The events of `k` cycles and the state after them; nothing if a cycle is refused. -/
def trace : Nat → State → Option (List Event × State)
  | 0, s => some ([], s)
  | k + 1, s =>
    match step s with
    | .next t =>
      match trace k t with
      | some (es, u) => some (⟨sample s, t.outputs⟩ :: es, u)
      | none => none
    | .fault _ => none
    | .refused _ => none

/-- The units accepted, in cycle order (R91), of a block of unit width `w`. -/
def accepted (w : Nat) : List Event → List Word
  | [] => []
  | e :: es => if e.outputs.enqOk then unitField w e.input.cmd :: accepted w es else accepted w es

/-- The units delivered, in cycle order (R91). -/
def delivered : List Event → List Word
  | [] => []
  | e :: es => if e.outputs.deqOk then e.outputs.deqData :: delivered es else delivered es

/-- No cycle of the events is a reset cycle. -/
abbrev NoReset (es : List Event) : Prop := ∀ e ∈ es, e.input.rst = false

/-- The cycle of R87, word for word: its next state and outputs, from the state and the cycle's
`(RST, CMD, TX_READY)`. -/
def rule87 (s : State) (rst : Bool) (cmd : Command) (txReady : Bool) : State × Outputs :=
  let enqReq := cmd.getLsbD 1 && !rst
  let deqReq := cmd.getLsbD 0 && !rst
  let v := unitField s.params.w cmd
  let enqOk := enqReq && decide (s.count < s.params.cap)
  let deqOk := deqReq && decide (s.count > 0)
  let count' := s.count + enqOk.toNat - deqOk.toNat
  let out : Outputs :=
    { enqOk := enqOk, deqOk := deqOk, deqData := if deqOk then s.slots.getD s.head 0 else 0,
      empty := decide (s.count = 0), txie := s.txie, txIrq := s.txie && txReady }
  if rst then ({ s with head := 0, count := 0, txie := false }, out)
  else
    ({ s with
        slots := if enqOk then s.slots.set ((s.head + s.count) % s.params.cap) v else s.slots
        head := if deqOk then (s.head + 1) % s.params.cap else s.head
        count := count'
        txie := if enqOk || deqReq then decide (count' ≠ 0) else s.txie }, out)

end Sys2Proof.Machine
end

