-- ==== Sys2Proof/Certificates/Slice0/Obligations.lean ====
section
/-! DEFINITION. The statements for the provers, from the numbered rules of spec/. An instruction's outputs are written
out port by port in each of them: ENQ_OK, DEQ_OK, DEQ_DATA, EMPTY, TXIE, TX_IRQ (R60). -/

open Sys2Proof Sys2Proof.Machine

/-! ## Command words -/

/-- R68: the encoder and the decoder are total and inverse to each other up to the ignored bits, for every legal
unit width. IS_EMPTY (R65, R70) has NOP's word, so its word decodes to NOP. -/
def Obligations.EncoderAndDecoderAreInverse : Prop :=
  ∀ w, 9 ≤ w → w ≤ 16 →
    (encode .nop = 0 ∧ encode .deq = 1 ∧
      ∀ v : Word, Word.Fits w v →
        (encode (.enq v)).toNat = v.toNat * 4 + 2 ∧ (encode (.enqdeq v)).toNat = v.toNat * 4 + 3) ∧
    (∀ c : Command, c.toNat < 2 ^ (w + 2) →
      (c.toNat % 4 = 0 → decode w c = .nop) ∧ (c.toNat % 4 = 1 → decode w c = .deq) ∧
      (c.toNat % 4 = 2 → decode w c = .enq (BitVec.ofNat 16 (c.toNat / 4))) ∧
      (c.toNat % 4 = 3 → decode w c = .enqdeq (BitVec.ofNat 16 (c.toNat / 4)))) ∧
    (∀ i : Instr, i.wf w = true →
      decode w (encode i) = i.command ∧ (i ≠ .isEmpty → i.command = i) ∧ (i = .isEmpty → i.command = .nop)) ∧
    (∀ c : Command, c.toNat < 2 ^ (w + 2) → (c.getLsbD 1 = true ∨ c.toNat / 4 = 0) → encode (decode w c) = c) ∧
    (encode (.enq 0x41) = 0x00106 ∧ encode (.enq 0xFFFF) = 0x3FFFE ∧ encode (.enqdeq 0x0044) = 0x00113)

/-- Section 2.1 of spec/95_test_vectors.md: the words ENC-1 to ENC-11, and the refusal of a number that is wider than
a command word (R67). -/
def Obligations.SpecVectorWordsDecode : Prop :=
  decodeNat 16 0x00000 = .ok .nop ∧ decodeNat 16 0x00001 = .ok .deq ∧
  decodeNat 16 0x00106 = .ok (.enq 0x0041) ∧ decodeNat 16 0x00002 = .ok (.enq 0x0000) ∧
  decodeNat 16 0x3FFFE = .ok (.enq 0xFFFF) ∧ decodeNat 16 0x00157 = .ok (.enqdeq 0x0055) ∧
  decodeNat 16 0x22223 = .ok (.enqdeq 0x8888) ∧ decodeNat 16 0x3FFFC = .ok .nop ∧
  decodeNat 16 0x3FFFD = .ok .deq ∧ decodeNat 9 0x7FE = .ok (.enq 0x1FF) ∧
  decodeNat 9 0x2AB = .ok (.enqdeq 0x0AA) ∧ decodeNat 9 0x800 = .error .widerThanCommand ∧
  decodeNat 16 0x40000 = .error .widerThanCommand

/-- R61: where each port's bits stand in the command word, and the way back. -/
def Obligations.CommandWordGathersThePorts : Prop :=
  (∀ x : Input, x.cmd.getLsbD 0 = x.deqReq ∧ x.cmd.getLsbD 1 = x.enqReq ∧
    ∀ i, x.cmd.getLsbD (i + 2) = x.enqData.getLsbD i) ∧
  (∀ (c : Command) (rst r : Bool), (Input.ofCommand c rst r).cmd = c ∧ (Input.ofCommand c rst r).rst = rst ∧
    (Input.ofCommand c rst r).txReady = r)

/-- R63: the unit operand is the `W` bits `CMD[W+1:2]`, unchanged. Both commands that take one read that field. -/
def Obligations.UnitOperandIsItsFieldUnchanged : Prop :=
  ∀ w, w ≤ 16 → ∀ c : Command,
    (∀ i, (unitField w c).getLsbD i = (decide (i < w) && c.getLsbD (i + 2))) ∧ Word.Fits w (unitField w c) ∧
    (c.getLsbD 1 = true → c.getLsbD 0 = false → decode w c = .enq (unitField w c)) ∧
    (c.getLsbD 1 = true → c.getLsbD 0 = true → decode w c = .enqdeq (unitField w c))

/-- R66: every command word is legal and traps nowhere, and where `CMD[1] = 0` the bits `CMD[W+1:2]` change neither
effect nor outputs. -/
def Obligations.EveryWordIsLegalAndIdleDataIsIgnored : Prop :=
  (∀ s, Ready s → ∀ (c : Command) (r : Bool) (xs : List Input),
    ∃ t, step (s.withSchedule (Input.ofCommand c false r :: xs)) = .next t) ∧
  (∀ (s : State) (c c' : Command) (r : Bool) (xs : List Input),
    c.getLsbD 1 = false → c'.getLsbD 1 = false → c'.getLsbD 0 = c.getLsbD 0 →
      decode s.params.w c' = decode s.params.w c ∧
      step (s.withSchedule (Input.ofCommand c' false r :: xs)) =
        step (s.withSchedule (Input.ofCommand c false r :: xs)))

/-! ## The step and the instructions -/

/-- A cycle with RST = 0 runs the decoded instruction, whatever the state; a cycle takes its inputs from the head of
the schedule, and, where the schedule is empty, does what it does with the free draw of its number there (the schedule
and the draw are the model's choice, log entry 4). The step adds nothing around `exec`. -/
def Obligations.StepRunsTheDecodedInstruction : Prop :=
  (∀ (s : State) (x : Input) (xs : List Input), s.schedule = x :: xs → x.rst = false →
    step s = exec (decode s.params.w x.cmd) s) ∧
  (∀ s : State, s.schedule = [] → step s = step (s.withSchedule [Config.freeInput s.params.role s.edges]))

/-- R82: NOP changes nothing, once or many times in a row. -/
def Obligations.NopChangesNothing : Prop :=
  (∀ (w : Nat) (c : Command), c.getLsbD 1 = false → c.getLsbD 0 = false → decode w c = .nop) ∧
  (∀ s, Ready s → ∃ t, exec .nop s = .next t ∧ SameBlock s t ∧ InputsAdvance s t ∧
    t.outputs = { enqOk := false, deqOk := false, deqData := 0, empty := decide (s.count = 0), txie := s.txie,
                  txIrq := s.txie && (sample s).txReady }) ∧
  (∀ k s es t, trace k s = some (es, t) →
    (∀ e ∈ es, e.input.rst = false ∧ e.input.enqReq = false ∧ e.input.deqReq = false) → SameBlock s t)

/-- R26, R86: EMPTY is `count = 0` at the start of the cycle, in every cycle, reset cycles too; IS_EMPTY is a cycle
that reads it and writes nothing. -/
def Obligations.EmptyOutputAndIsEmpty : Prop :=
  (∀ s t, step s = .next t → t.outputs.empty = decide (s.count = 0)) ∧
  (∀ s, Ready s → ∃ t, exec .isEmpty s = .next t ∧ SameBlock s t ∧ InputsAdvance s t ∧
    t.outputs = { enqOk := false, deqOk := false, deqData := 0, empty := decide (s.count = 0), txie := s.txie,
                  txIrq := s.txie && (sample s).txReady })

/-- R83: an enqueue is accepted at the tail if the queue is not full, and dropped with no change if it is. -/
def Obligations.EnqStoresAtTheTailOrDrops : Prop :=
  (∀ (w : Nat) (c : Command), c.getLsbD 1 = true → c.getLsbD 0 = false → decode w c = .enq (unitField w c)) ∧
  (∀ s v, Ready s → s.count < s.params.cap → ∃ t, exec (.enq v) s = .next t ∧
    t.slots = s.slots.set ((s.head + s.count) % s.params.cap) v ∧ t.head = s.head ∧ t.count = s.count + 1 ∧
    t.txie = true ∧ t.params = s.params ∧ t.initialized = s.initialized ∧ InputsAdvance s t ∧
    t.outputs = { enqOk := true, deqOk := false, deqData := 0, empty := decide (s.count = 0), txie := s.txie,
                  txIrq := s.txie && (sample s).txReady }) ∧
  (∀ s v, Ready s → s.count = s.params.cap → ∃ t, exec (.enq v) s = .next t ∧ SameBlock s t ∧ InputsAdvance s t ∧
    t.outputs = { enqOk := false, deqOk := false, deqData := 0, empty := decide (s.count = 0), txie := s.txie,
                  txIrq := s.txie && (sample s).txReady })

/-- R84: a dequeue returns the unit at `head` if there is one, and reports empty if there is none. -/
def Obligations.DeqReturnsTheHeadOrReportsEmpty : Prop :=
  (∀ (w : Nat) (c : Command), c.getLsbD 1 = false → c.getLsbD 0 = true → decode w c = .deq) ∧
  (∀ s, Ready s → 0 < s.count → ∃ t, exec .deq s = .next t ∧
    t.slots = s.slots ∧ t.head = (s.head + 1) % s.params.cap ∧ t.count = s.count - 1 ∧
    t.txie = decide (s.count - 1 ≠ 0) ∧ t.params = s.params ∧ t.initialized = s.initialized ∧ InputsAdvance s t ∧
    t.outputs = { enqOk := false, deqOk := true, deqData := slotRead s s.head, empty := false, txie := s.txie,
                  txIrq := s.txie && (sample s).txReady }) ∧
  (∀ s, Ready s → s.count = 0 → ∃ t, exec .deq s = .next t ∧
    t.slots = s.slots ∧ t.head = s.head ∧ t.count = 0 ∧ t.txie = false ∧ t.params = s.params ∧
    t.initialized = s.initialized ∧ InputsAdvance s t ∧
    t.outputs = { enqOk := false, deqOk := false, deqData := 0, empty := true, txie := s.txie,
                  txIrq := s.txie && (sample s).txReady })

/-- R85: ENQDEQ judges both requests on the state at the start of the cycle; on an empty queue it enqueues only, on a
full one it dequeues only, else both succeed, at different slots. -/
def Obligations.EnqdeqJudgesBothOnTheStartOfCycle : Prop :=
  (∀ (w : Nat) (c : Command), c.getLsbD 1 = true → c.getLsbD 0 = true → decode w c = .enqdeq (unitField w c)) ∧
  (∀ s v, Ready s → s.count = 0 → ∃ t, exec (.enqdeq v) s = .next t ∧
    t.slots = s.slots.set s.head v ∧ t.head = s.head ∧ t.count = 1 ∧ t.txie = true ∧ t.params = s.params ∧
    t.initialized = s.initialized ∧ InputsAdvance s t ∧
    t.outputs = { enqOk := true, deqOk := false, deqData := 0, empty := true, txie := s.txie,
                  txIrq := s.txie && (sample s).txReady }) ∧
  (∀ s v, Ready s → s.count = s.params.cap → ∃ t, exec (.enqdeq v) s = .next t ∧
    t.slots = s.slots ∧ t.head = (s.head + 1) % s.params.cap ∧ t.count = s.params.cap - 1 ∧
    t.txie = decide (s.params.cap - 1 ≠ 0) ∧ t.params = s.params ∧ t.initialized = s.initialized ∧
    InputsAdvance s t ∧
    t.outputs = { enqOk := false, deqOk := true, deqData := slotRead s s.head, empty := false, txie := s.txie,
                  txIrq := s.txie && (sample s).txReady }) ∧
  (∀ s v, Ready s → 0 < s.count → s.count < s.params.cap → ∃ t, exec (.enqdeq v) s = .next t ∧
    t.slots = s.slots.set ((s.head + s.count) % s.params.cap) v ∧ (s.head + s.count) % s.params.cap ≠ s.head ∧
    t.head = (s.head + 1) % s.params.cap ∧ t.count = s.count ∧ t.txie = true ∧ t.params = s.params ∧
    t.initialized = s.initialized ∧ InputsAdvance s t ∧
    t.outputs = { enqOk := true, deqOk := true, deqData := slotRead s s.head, empty := false, txie := s.txie,
                  txIrq := s.txie && (sample s).txReady })

/-- R130: no operation faults; the four outcomes as the ports report them. -/
def Obligations.FullAndEmptyAreOutcomesNotFaults : Prop :=
  (∀ s r, step s ≠ .fault r) ∧ (∀ i s r, exec i s ≠ .fault r) ∧
  (∀ s v, Ready s → s.count < s.params.cap → ∃ t, exec (.enq v) s = .next t ∧ t.outputs.enqOk = true) ∧
  (∀ s v, Ready s → s.count = s.params.cap → ∃ t, exec (.enq v) s = .next t ∧ t.outputs.enqOk = false) ∧
  (∀ s, Ready s → s.count ≠ 0 → ∃ t, exec .deq s = .next t ∧ t.outputs.deqOk = true ∧
    some t.outputs.deqData = (queue s).head?) ∧
  (∀ s, Ready s → s.count = 0 → ∃ t, exec .deq s = .next t ∧ t.outputs.deqOk = false ∧ t.outputs.deqData = 0)

/-- R87: one step is the spec's whole-cycle function: next slots, `head`, `count`, `txie`, and the six outputs. -/
def Obligations.StepIsTheWholeCycleFunction : Prop :=
  ∀ s, s.params.Legal → s.params.Spsc → ((sample s).rst = true ∨ Ready s) →
    ∃ t, step s = .next t ∧
      t.slots = (rule87 s (sample s).rst (sample s).cmd (sample s).txReady).1.slots ∧
      t.head = (rule87 s (sample s).rst (sample s).cmd (sample s).txReady).1.head ∧
      t.count = (rule87 s (sample s).rst (sample s).cmd (sample s).txReady).1.count ∧
      t.txie = (rule87 s (sample s).rst (sample s).cmd (sample s).txReady).1.txie ∧
      t.outputs = (rule87 s (sample s).rst (sample s).cmd (sample s).txReady).2

/-! ## Frames -/

/-- What NOP, IS_EMPTY and DEQ leave alone: every slot (none of them stores), what the block was built with, and
`initialized`; NOP and IS_EMPTY, and a DEQ on an empty queue, also `head` and `count`; NOP and IS_EMPTY also `txie`. -/
def Obligations.FrameOfCyclesThatStoreNothing : Prop :=
  ∀ i s t, (i = .nop ∨ i = .isEmpty ∨ i = .deq) → exec i s = .next t →
    (∀ a, slotRead t a = slotRead s a) ∧ t.slots.length = s.slots.length ∧ t.params = s.params ∧
    t.initialized = s.initialized ∧
    (i ≠ .deq ∨ s.count = 0 → t.head = s.head ∧ t.count = s.count) ∧ (i ≠ .deq → t.txie = s.txie)

/-- What ENQ and ENQDEQ leave alone: every slot but the one at `tail s` when the enqueue is accepted, every slot when
it is dropped; what the block was built with, and `initialized`; ENQ also `head`, and `count` and `txie` too when it
is dropped. ENQDEQ on an empty queue also leaves `head`. -/
def Obligations.FrameOfCyclesThatEnqueue : Prop :=
  ∀ i v s t, (i = .enq v ∨ i = .enqdeq v) → exec i s = .next t →
    (∀ a, a ≠ tail s → slotRead t a = slotRead s a) ∧
    (s.count = s.params.cap → ∀ a, slotRead t a = slotRead s a) ∧
    t.slots.length = s.slots.length ∧ t.params = s.params ∧ t.initialized = s.initialized ∧
    (i = .enq v ∨ s.count = 0 → t.head = s.head) ∧
    (i = .enq v → s.count = s.params.cap → t.count = s.count ∧ t.txie = s.txie)

/-- R23 over whole cycles: only an accepted enqueue changes a slot, and only the one at the tail, which then holds its
unit; reset cycles change none. -/
def Obligations.OnlyAnAcceptedEnqueueWritesASlot : Prop :=
  ∀ s t, Shaped s → step s = .next t →
    (∀ a, slotRead t a ≠ slotRead s a → t.outputs.enqOk = true ∧ a = tail s) ∧
    (t.outputs.enqOk = true → slotRead t (tail s) = unitField s.params.w (sample s).cmd)

/-- R21, R22 over whole cycles: `head` moves in a successful dequeue and at reset only, `count` by the accepted
enqueue and the successful dequeue. -/
def Obligations.HeadAndCountFollowTheOutcomes : Prop :=
  ∀ s t, step s = .next t →
    ((sample s).rst = true → t.head = 0 ∧ t.count = 0) ∧
    ((sample s).rst = false →
      t.head = (if t.outputs.deqOk then (s.head + 1) % s.params.cap else s.head) ∧
      t.count + t.outputs.deqOk.toNat = s.count + t.outputs.enqOk.toNat)

/-- R31: ENQ_OK, DEQ_OK and the other outputs are no state: the next step does not depend on them. -/
def Obligations.OutputsAreNotState : Prop :=
  ∀ (s : State) (o : Outputs), step { s with outputs := o } = step s

/-- What the block was built with never changes, and a block once reset stays so. -/
def Obligations.BuildParametersAreFixed : Prop :=
  ∀ k s es t, trace k s = some (es, t) →
    t.params = s.params ∧ (s.initialized = true → t.initialized = true)

/-! ## The gating logic -/

/-- R110: the update rule of `txie`, and its table case by case. -/
def Obligations.TxieFollowsTheUpdateRule : Prop :=
  (∀ s t, (sample s).rst = false → step s = .next t →
    t.txie = (if t.outputs.enqOk || (sample s).deqReq then decide (t.count ≠ 0) else s.txie)) ∧
  (∀ s v, Ready s →
    (∃ t, exec .nop s = .next t ∧ t.txie = s.txie) ∧
    (∃ t, exec (.enq v) s = .next t ∧ (s.count < s.params.cap → t.txie = true) ∧
      (s.count = s.params.cap → t.txie = s.txie)) ∧
    (∃ t, exec .deq s = .next t ∧ (s.count ≤ 1 → t.txie = false) ∧ (1 < s.count → t.txie = true)) ∧
    (∃ t, exec (.enqdeq v) s = .next t ∧ (s.count < s.params.cap → t.txie = true) ∧
      (s.count = s.params.cap → t.txie = decide (s.params.cap - 1 ≠ 0))))

/-- R112, R113: TXIE is `txie` and TX_IRQ is `txie AND TX_READY` in every cycle, reset cycles too; a change of `txie`
at an edge shows in the next cycle. -/
def Obligations.TxIrqIsGatedByTxie : Prop :=
  (∀ s t, step s = .next t →
    t.outputs.txie = s.txie ∧ t.outputs.txIrq = (s.txie && (sample s).txReady) ∧
    (s.txie = false → t.outputs.txIrq = false)) ∧
  (∀ s t u, step s = .next t → step t = .next u →
    u.outputs.txie = t.txie ∧ u.outputs.txIrq = (t.txie && (sample t).txReady))

/-- R115: `txie` changes at an edge only by an accepted enqueue, a dequeue request or a reset. -/
def Obligations.TxieIsWrittenByNothingElse : Prop :=
  ∀ s t, step s = .next t → t.txie ≠ s.txie →
    (sample s).rst = true ∨ t.outputs.enqOk = true ∨ (sample s).deqReq = true

/-! ## Reset, power-on and what a model refuses -/

/-- R34, R150: a reset cycle, from any state of a rightly built block (a never reset one too): the outputs, the next
state, several reset cycles in a row, and the cycle after. -/
def Obligations.ResetCycle : Prop :=
  ∀ s, s.params.Legal → s.params.Spsc → (sample s).rst = true →
    (∃ t, step s = .next t ∧ t.head = 0 ∧ t.count = 0 ∧ t.txie = false ∧ t.slots = s.slots ∧
      t.params = s.params ∧ t.initialized = true ∧ InputsAdvance s t ∧ emptyFlag t = true ∧
      t.outputs = { enqOk := false, deqOk := false, deqData := 0, empty := decide (s.count = 0), txie := s.txie,
                    txIrq := s.txie && (sample s).txReady } ∧
      (∀ u, step t = .next u → u.outputs.empty = true ∧ u.outputs.txie = false ∧ u.outputs.txIrq = false)) ∧
    (∀ k es t, trace (k + 1) s = some (es, t) → (∀ e ∈ es, e.input.rst = true) →
      t.head = 0 ∧ t.count = 0 ∧ t.txie = false ∧ t.slots = s.slots ∧ t.params = s.params ∧ t.initialized = true)

/-- R151: a reset edge discards every queued unit: none of them is delivered after it. -/
def Obligations.ResetDiscardsTheQueue : Prop :=
  ∀ s t, (sample s).rst = true → step s = .next t →
    queue t = [] ∧ t.outputs.deqOk = false ∧
    ∀ k es u, Shaped s → trace k t = some (es, u) → NoReset es → delivered es <+: accepted s.params.w es

/-- R152: before the first reset edge every cycle with RST = 0 is refused; a reset edge ends that for good. -/
def Obligations.CyclesBeforeTheFirstResetAreRefused : Prop :=
  (∀ s, s.params.Legal → s.params.Spsc → s.initialized = false → (sample s).rst = false →
    step s = .refused .beforeFirstReset) ∧
  (∀ i s, s.params.Legal → s.params.Spsc → s.initialized = false → exec i s = .refused .beforeFirstReset) ∧
  (∀ s, s.params.Legal → s.params.Spsc → (sample s).rst = true → ∃ t, step s = .next t ∧ t.initialized = true) ∧
  (∀ s, s.initialized = true → step s ≠ .refused .beforeFirstReset)

/-- R9: a model refuses every value outside `CAP >= 1` and `9 <= W <= 16`, and no other for that reason. -/
def Obligations.IllegalParametersAreRefused : Prop :=
  (∀ s, (s.params.cap = 0 ∨ s.params.w < 9 ∨ 16 < s.params.w) →
    step s = .refused .badParameters ∧ ∀ i, exec i s = .refused .badParameters) ∧
  (∀ s, 1 ≤ s.params.cap → 9 ≤ s.params.w → s.params.w ≤ 16 → step s ≠ .refused .badParameters)

/-- R158: a model keeps exactly one agent per port and refuses a configuration with more. -/
def Obligations.SecondAgentOnAPortIsRefused : Prop :=
  ∀ s, s.params.Legal → (s.params.producers ≠ 1 ∨ s.params.consumers ≠ 1) →
    step s = .refused .brokenSpscContract ∧ ∀ i, exec i s = .refused .brokenSpscContract

/-- U3 of spec/93_implementation_defined.md: `head >= CAP` or `count > CAP` is refused in a cycle with RST = 0. -/
def Obligations.IndicesOutOfRangeAreRefused : Prop :=
  ∀ s, s.params.Legal → s.params.Spsc → s.initialized = true → (s.params.cap ≤ s.head ∨ s.params.cap < s.count) →
    (∀ i, exec i s = .refused .stateOutOfRange) ∧
    ((sample s).rst = false → step s = .refused .stateOutOfRange)

/-! ## Invariants -/

/-- The invariant holds right after a reset edge, at State.reset and for every legal build and every slot contents. -/
def Obligations.InvariantHoldsAfterReset : Prop :=
  BlockInv State.reset ∧ State.reset.params = { cap := 16, w := 16, producers := 1, consumers := 1, role := .echo } ∧
  queue State.reset = [] ∧
  (∀ p slots, p.Legal → p.Spsc → Shaped (State.afterReset p slots) → BlockInv (State.afterReset p slots)) ∧
  (∀ s t, Shaped s → (sample s).rst = true → step s = .next t → BlockInv t)

/-- From every state that meets the invariant of R33 and R111, a cycle, whatever its inputs, answers a next state that
meets it. -/
def Obligations.EveryCycleKeepsTheInvariant : Prop :=
  ∀ s, BlockInv s → ∃ t, step s = .next t ∧ BlockInv t ∧ t.params = s.params

/-- R33, R89, R111 over every run from a reset edge, resets in between included: the ranges, the capacity bound, and
TXIE = NOT EMPTY in every cycle. -/
def Obligations.TxieIsNotEmptyInEveryReachableCycle : Prop :=
  ∀ s0 s k es t, Shaped s0 → (sample s0).rst = true → step s0 = .next s → trace k s = some (es, t) →
    t.head < t.params.cap ∧ t.count ≤ t.params.cap ∧ (queue t).length = t.count ∧
    t.txie = decide (t.count ≠ 0) ∧ ∀ e ∈ es, e.outputs.txie = !e.outputs.empty

/-- R80, R159: no command sequence stalls a block that has been reset: a run of any length goes through, whatever the
environment presents. -/
def Obligations.EveryRunFromResetGoesThrough : Prop :=
  ∀ p slots xs k, p.Legal → p.Spsc → Shaped (State.afterReset p slots) →
    ∃ t : State, Host.Core.run Sys2Proof.core k ((State.afterReset p slots).withSchedule xs) = .next t ∧ BlockInv t

/-- R92: index arithmetic over cycles with RST = 0. -/
def Obligations.IndexArithmeticNeverOverflows : Prop :=
  (∀ s, BlockInv s → s.head + s.count ≤ 2 * s.params.cap - 1 ∧ s.head < 2 ^ s.params.headW ∧
    s.count < 2 ^ s.params.countW) ∧
  (∀ s t, BlockInv s → (sample s).rst = false → step s = .next t →
    (t.head = s.head ∨ t.head = (s.head + 1) % s.params.cap) ∧
    (t.count = s.count + 1 ∨ t.count + 1 = s.count ∨ t.count = s.count) ∧
    t.count ≤ s.params.cap ∧ t.count < 2 ^ s.params.countW)

/-- R8: the register widths: `ceil(log2 n)` is the least `k` with `n <= 2^k`, and the defaults. -/
def Obligations.RegisterWidths : Prop :=
  (∀ n, n ≤ 2 ^ ceilLog2 n ∧ ∀ k, n ≤ 2 ^ k → ceilLog2 n ≤ k) ∧
  (∀ p : Params, p.headW = max 1 (ceilLog2 p.cap) ∧ p.countW = ceilLog2 (p.cap + 1) ∧ p.commandW = p.w + 2) ∧
  Params.default.headW = 4 ∧ Params.default.countW = 5 ∧ Params.default.commandW = 18

/-- R24: the tail index; on a full queue it is `head`, and no enqueue writes it then. -/
def Obligations.TailOfAFullQueueIsHeadAndUnwritten : Prop :=
  ∀ s, Ready s → tail s = (s.head + s.count) % s.params.cap ∧
    (s.count = s.params.cap → tail s = s.head ∧
      ∀ v, ∃ t u, exec (.enq v) s = .next t ∧ exec (.enqdeq v) s = .next u ∧ t.slots = s.slots ∧ u.slots = s.slots)

/-! ## The queue Q(s) -/

/-- R88: the effect of each operation on Q(s), case by case. -/
def Obligations.EffectOnTheAbstractQueue : Prop :=
  ∀ s v, Ready s → Shaped s →
    (∃ t, exec (.enq v) s = .next t ∧ (s.count < s.params.cap → queue t = queue s ++ [v]) ∧
      (s.count = s.params.cap → queue t = queue s)) ∧
    (∃ t, exec .deq s = .next t ∧ (s.count ≠ 0 → queue s = t.outputs.deqData :: queue t) ∧
      (s.count = 0 → queue t = [] ∧ queue s = [])) ∧
    (∃ t, exec (.enqdeq v) s = .next t ∧
      (0 < s.count → s.count < s.params.cap →
        ∃ rest, queue s = t.outputs.deqData :: rest ∧ queue t = rest ++ [v]) ∧
      (s.count = 0 → queue t = [v]) ∧ (s.count = s.params.cap → queue s = t.outputs.deqData :: queue t)) ∧
    (∃ t, exec .nop s = .next t ∧ queue t = queue s) ∧ (∃ t, exec .isEmpty s = .next t ∧ queue t = queue s)

/-- R91: in every run from a reset edge with no further reset, the units delivered are the units accepted, in order,
those not yet delivered being Q(s); up to any cycle the dequeues are of units accepted before that cycle's edge. -/
def Obligations.UnitsAreDeliveredInTheOrderAccepted : Prop :=
  ∀ s0 s k es t, Shaped s0 → (sample s0).rst = true → step s0 = .next s → trace k s = some (es, t) → NoReset es →
    accepted s.params.w es = delivered es ++ queue t ∧
    delivered es <+: accepted s.params.w es.dropLast

/-- R41: in every run from a reset edge with no further reset, bit `i` of the n-th unit delivered is bit `i` of
ENQ_DATA in the cycle of the n-th accepted enqueue, for every `i < W`. -/
def Obligations.UnitsMoveBitExact : Prop :=
  ∀ s0 s k es t, Shaped s0 → (sample s0).rst = true → step s0 = .next s → trace k s = some (es, t) → NoReset es →
    ∀ (n : Nat) (d : Word), (delivered es)[n]? = some d →
      ∃ e : Event, (es.filter fun e => e.outputs.enqOk)[n]? = some e ∧
        ∀ i, i < s.params.w → d.getLsbD i = e.input.enqData.getLsbD i

/-- R25: two states with the same Q(s) and `txie`, the same build and the same inputs to come show the same outputs
for ever, whatever their slots hold outside Q(s) and wherever their `head` stands. -/
def Obligations.OutputsDependOnlyOnTheQueueAndTxie : Prop :=
  ∀ k s u, Ready s → Ready u → Shaped s → Shaped u → u.params = s.params → queue u = queue s → u.txie = s.txie →
    u.schedule = s.schedule → u.edges = s.edges → (trace k u).map Prod.fst = (trace k s).map Prod.fst

/-- R48: ENQDEQ has the same effect and results as a serial order: dequeue first unless the queue is full, enqueue
first unless it is empty; on a partly full queue both. -/
def Obligations.SameCycleRequestsAreSerial : Prop :=
  ∀ s v, Ready s → ∃ t, exec (.enqdeq v) s = .next t ∧
    (s.count < s.params.cap → ∃ a b, exec .deq s = .next a ∧ exec (.enq v) a = .next b ∧ SameBlock b t ∧
      t.outputs.deqOk = a.outputs.deqOk ∧ t.outputs.deqData = a.outputs.deqData ∧
      t.outputs.enqOk = b.outputs.enqOk) ∧
    (0 < s.count → ∃ a b, exec (.enq v) s = .next a ∧ exec .deq a = .next b ∧ SameBlock b t ∧
      t.outputs.enqOk = a.outputs.enqOk ∧ t.outputs.deqOk = b.outputs.deqOk ∧
      t.outputs.deqData = b.outputs.deqData)

/-- R44: which operations are destructive and which change nothing. -/
def Obligations.SideEffectsOfEachOutcome : Prop :=
  (∀ s, Ready s → s.count ≠ 0 → ∃ t, exec .deq s = .next t ∧ queue s = t.outputs.deqData :: queue t) ∧
  (∀ s, Ready s → s.count = 0 → ∃ t, exec .deq s = .next t ∧
    t.slots = s.slots ∧ t.head = s.head ∧ t.count = s.count ∧ t.txie = false) ∧
  (∀ s v, Ready s → s.count = s.params.cap → ∃ t, exec (.enq v) s = .next t ∧ SameBlock s t) ∧
  (∀ s, Ready s → (∃ t, exec .nop s = .next t ∧ SameBlock s t) ∧ (∃ t, exec .isEmpty s = .next t ∧ SameBlock s t))

/-! ## Hazards -/

/-- R155: a unit accepted in a cycle can be dequeued from the next cycle on and not in that one; EMPTY, TXIE and
TX_IRQ show it from the next cycle on; a slot freed in a cycle takes an enqueue from the next cycle on. -/
def Obligations.EnqueueToDequeueLatency : Prop :=
  (∀ s v v', Ready s → ∃ t t', exec (.enqdeq v) s = .next t ∧ exec (.enqdeq v') s = .next t' ∧
    t'.outputs.deqOk = t.outputs.deqOk ∧ t'.outputs.deqData = t.outputs.deqData ∧
    (s.count = 0 → t.outputs.deqOk = false) ∧
    (s.count = s.params.cap → t.outputs.enqOk = false ∧ t.outputs.deqOk = true)) ∧
  (∀ s v, Ready s → Shaped s → s.count = 0 → ∃ t u, exec (.enq v) s = .next t ∧ exec .deq t = .next u ∧
    t.outputs.enqOk = true ∧ u.outputs.deqOk = true ∧ u.outputs.deqData = v) ∧
  (∀ s v, Ready s → s.count < s.params.cap → ∃ t, exec (.enq v) s = .next t ∧
    t.outputs.empty = decide (s.count = 0) ∧ t.outputs.txie = s.txie ∧
    t.outputs.txIrq = (s.txie && (sample s).txReady) ∧
    ∀ u, step t = .next u → u.outputs.empty = false ∧ u.outputs.txie = true ∧
      u.outputs.txIrq = (sample t).txReady) ∧
  (∀ s v, Ready s → s.count = s.params.cap → ∃ t u, exec .deq s = .next t ∧ exec (.enq v) t = .next u ∧
    t.outputs.deqOk = true ∧ u.outputs.enqOk = true)

/-- R156: TX_IRQ still stands in the cycle that removes the last unit and falls in the next one, across a reset edge
too; a dequeue that then finds the queue empty changes nothing. -/
def Obligations.TxIrqLagsByOneCycle : Prop :=
  (∀ s, BlockInv s → s.count = 1 → ∃ t, exec .deq s = .next t ∧ t.outputs.txIrq = (sample s).txReady ∧
    (∀ u, step t = .next u → u.outputs.txIrq = false) ∧
    (∃ u, exec .deq t = .next u ∧ u.outputs.deqOk = false ∧ SameBlock t u)) ∧
  (∀ s, BlockInv s → s.count ≠ 0 → (sample s).rst = true → ∃ t, step s = .next t ∧
    t.outputs.txIrq = (sample s).txReady ∧ ∀ u, step t = .next u → u.outputs.txIrq = false)

/-- R157: only the consumer empties the queue and only the producer fills it: what each side has seen stays so until
its own next success, or a reset. -/
def Obligations.EachSidesViewIsStable : Prop :=
  (∀ k s es t r, BlockInv s → trace k s = some (es, t) → (emptyFlag s = false ∨ txIrqFlag s r = true) →
    (∀ e ∈ es, e.input.rst = false ∧ e.outputs.deqOk = false) → t.count ≠ 0) ∧
  (∀ k s es t, BlockInv s → trace k s = some (es, t) → s.count ≠ s.params.cap →
    (∀ e ∈ es, e.input.rst = false ∧ e.outputs.enqOk = false) → t.count ≠ t.params.cap)

/-- R154: from a reset edge, TX_IRQ is 0 until the first accepted enqueue, that enqueue's own cycle included, whatever
TX_READY is. -/
def Obligations.NoInterruptBeforeTheFirstAcceptedEnqueue : Prop :=
  ∀ s0 s k es t u, (sample s0).rst = true → step s0 = .next s → trace k s = some (es, t) →
    (∀ e ∈ es, e.outputs.enqOk = false) → step t = .next u →
      (∀ e ∈ es, e.outputs.txIrq = false) ∧ u.outputs.txIrq = false

/-! ## Instances and the assembler -/

/-- R53: the two instances of a bridge share nothing: a cycle of the bridge is a cycle of each, as the instance it is,
and what one does depends on it alone. Where their schedules list nothing, each takes the draws of its own producer and
consumer (log entry 4), and no others. -/
def Obligations.InstancesShareNoState : Prop :=
  (∀ b b' : Bridge, b.step = .next b' ↔
    step (b.asyncToSync.inRole .asyncToSync) = .next b'.asyncToSync ∧
    step (b.syncToAsync.inRole .syncToAsync) = .next b'.syncToAsync) ∧
  (∀ b b' : Bridge, b.step = .next b' →
    b'.asyncToSync.params.role = .asyncToSync ∧ b'.syncToAsync.params.role = .syncToAsync ∧
    (∀ x xs, b.asyncToSync.schedule = x :: xs → b'.asyncToSync.schedule = xs) ∧
    (∀ x xs, b.syncToAsync.schedule = x :: xs → b'.syncToAsync.schedule = xs)) ∧
  (∀ b : Bridge,
    (b.asyncToSync.schedule = [] → step (b.asyncToSync.inRole .asyncToSync) =
      step ((b.asyncToSync.inRole .asyncToSync).withSchedule
        [Config.freeInput .asyncToSync b.asyncToSync.edges])) ∧
    (b.syncToAsync.schedule = [] → step (b.syncToAsync.inRole .syncToAsync) =
      step ((b.syncToAsync.inRole .syncToAsync).withSchedule
        [Config.freeInput .syncToAsync b.syncToAsync.edges]))) ∧
  (∀ b c b' c' : Bridge, b.step = .next b' → c.step = .next c' →
    (c.asyncToSync = b.asyncToSync → c'.asyncToSync = b'.asyncToSync ∧ c'.syncTxEnable = b'.syncTxEnable) ∧
    (c.syncToAsync = b.syncToAsync → c'.syncToAsync = b'.syncToAsync ∧ c'.asyncTxEnable = b'.asyncTxEnable))

/-- R117: which peripheral's transmit enable each instance's TXIE is, in the bridge and in the echo, and that it gates
that peripheral's TX_READY; on blocks that meet the invariant a bridge cycle goes through, and each enable is then NOT
EMPTY of the queue its peripheral drains. -/
def Obligations.EnablesFollowTheDrainingPeripheral : Prop :=
  (∀ b b' : Bridge, b.step = .next b' →
    b'.asyncToSync.outputs.txie = b.syncTxEnable ∧
    b'.asyncToSync.outputs.txIrq = (b.syncTxEnable && (sample (b.asyncToSync.inRole .asyncToSync)).txReady) ∧
    b'.syncToAsync.outputs.txie = b.asyncTxEnable ∧
    b'.syncToAsync.outputs.txIrq = (b.asyncTxEnable && (sample (b.syncToAsync.inRole .syncToAsync)).txReady)) ∧
  (∀ s t, step s = .next t → t.outputs.txie = s.echoTxEnable ∧
    t.outputs.txIrq = (s.echoTxEnable && (sample s).txReady)) ∧
  (∀ b : Bridge, BlockInv b.asyncToSync → BlockInv b.syncToAsync → ∃ b', b.step = .next b' ∧
    BlockInv b'.asyncToSync ∧ BlockInv b'.syncToAsync ∧
    b'.syncTxEnable = !emptyFlag b'.asyncToSync ∧ b'.asyncTxEnable = !emptyFlag b'.syncToAsync) ∧
  (∀ s, BlockInv s → ∃ t, step s = .next t ∧ BlockInv t ∧ t.echoTxEnable = !emptyFlag t) ∧
  BlockInv Bridge.reset.asyncToSync ∧ BlockInv Bridge.reset.syncToAsync

/-- R69: an immediate of `2^W` or more is refused and not truncated; a smaller one is the unit of its one cycle. -/
def Obligations.AssemblerRefusesWideImmediates : Prop :=
  ∀ (p : Params) (r : Bool) (imm : Nat), p.Legal →
    (2 ^ p.w ≤ imm → assemble p.w r (.enq imm) = .error .immediateTooWide ∧
      assemble p.w r (.enqdeq imm) = .error .immediateTooWide) ∧
    (imm < 2 ^ p.w → ∃ v : Word, v.toNat = imm ∧ ∃ x y : Input,
      assemble p.w r (.enq imm) = .ok [x] ∧ decode p.w x.cmd = .enq v ∧ x.rst = false ∧ x.txReady = r ∧
      assemble p.w r (.enqdeq imm) = .ok [y] ∧ decode p.w y.cmd = .enqdeq v ∧ y.rst = false ∧ y.txReady = r)

/-- R69, R70: what each statement text says, its immediates and counts in decimal or hexadecimal digits, and that a
label and a comment change nothing of it. One space between words, and a count written as an immediate, are the forms
of log entry 8; that a count has no bound of its own is log entry 18; what text
a label and a comment may be is log entry 19. -/
def Obligations.LabelsAndCommentsAreIgnored : Prop :=
  parseLine ['N', 'O', 'P'] = .ok .nop ∧ parseLine ['D', 'E', 'Q'] = .ok .deq ∧
  parseLine ['I', 'S', '_', 'E', 'M', 'P', 'T', 'Y'] = .ok .isEmpty ∧
  parseLine ['R', 'E', 'S', 'E', 'T'] = .ok .reset ∧
  (∀ (n : Nat) (imm : List Char), imm = Nat.toDigits 10 n ∨ imm = '0' :: 'x' :: Nat.toDigits 16 n →
    parseLine (['E', 'N', 'Q', ' '] ++ imm) = .ok (.enq n) ∧
    parseLine (['E', 'N', 'Q', 'D', 'E', 'Q', ' '] ++ imm) = .ok (.enqdeq n) ∧
    parseLine (['D', 'R', 'A', 'I', 'N', ' '] ++ imm) = .ok (.drain n) ∧
    ∀ (v : Nat) (first : List Char), first = Nat.toDigits 10 v ∨ first = '0' :: 'x' :: Nat.toDigits 16 v →
      parseLine (['F', 'I', 'L', 'L', ' '] ++ imm ++ [',', ' '] ++ first) = .ok (.fill n v)) ∧
  ∀ label stmt comment : List Char, (∀ c ∈ label, c ≠ ':' ∧ c ≠ ';') → (∀ c ∈ stmt, c ≠ ':' ∧ c ≠ ';') →
    parseLine (label ++ ':' :: stmt) = parseLine stmt ∧ parseLine (stmt ++ ';' :: comment) = parseLine stmt ∧
    parseLine (label ++ ':' :: (stmt ++ ';' :: comment)) = parseLine stmt

/-- R70: what each pseudo-instruction expands to, and the NOP and DEQ cycles that IS_EMPTY and DRAIN expand to. That all
cycles of a FILL or a DRAIN have one TX_READY is the model's choice (log entry 17), and so is that their count may be 0
and is not bounded (log entry 18). -/
def Obligations.PseudoInstructionsExpand : Prop :=
  ∀ (p : Params) (r : Bool), p.Legal →
    (∃ x : Input, assemble p.w r .nop = .ok [x] ∧ assemble p.w r .isEmpty = .ok [x] ∧
      decode p.w x.cmd = .nop ∧ x.enqReq = false ∧ x.deqReq = false ∧ x.rst = false ∧ x.txReady = r) ∧
    (∃ x : Input, assemble p.w r .reset = .ok [x] ∧ x.rst = true ∧ x.cmd = 0 ∧ x.txReady = r) ∧
    (∀ n v0, n = 0 ∨ v0 + n ≤ 2 ^ p.w → ∃ xs : List Input, assemble p.w r (.fill n v0) = .ok xs ∧ xs.length = n ∧
      ∀ k, k < n → ∃ x : Input, xs[k]? = some x ∧ assemble p.w r (.enq (v0 + k)) = .ok [x] ∧
        decode p.w x.cmd = .enq (BitVec.ofNat 16 (v0 + k)) ∧ x.rst = false ∧ x.txReady = r) ∧
    (∀ n v0, 0 < n → 2 ^ p.w < v0 + n → assemble p.w r (.fill n v0) = .error .immediateTooWide) ∧
    (∃ x : Input, assemble p.w r .deq = .ok [x] ∧
      decode p.w x.cmd = .deq ∧ x.enqReq = false ∧ x.deqReq = true ∧ x.rst = false ∧ x.txReady = r ∧
      ∀ n, assemble p.w r (.drain n) = .ok (List.replicate n x))

/-- R69: a program is the cycles of its lines in order, from statements and from text, TX_READY being each line's entry
in the program's column and 0 where it has none. That a refused line refuses its program is the model's choice (log
entry 8). -/
def Obligations.ProgramIsTheCyclesOfItsLines : Prop :=
  ∀ w : Nat,
    assembleProgram w [] = .ok [] ∧ assembleText w [] = .ok [] ∧
    (∀ st entry rest xs ys, assemble w (entry.getD false) st = .ok xs → assembleProgram w rest = .ok ys →
      assembleProgram w ((st, entry) :: rest) = .ok (xs ++ ys)) ∧
    (∀ st entry rest e, assemble w (entry.getD false) st = .error e →
      assembleProgram w ((st, entry) :: rest) = .error e) ∧
    (∀ st entry rest xs e, assemble w (entry.getD false) st = .ok xs → assembleProgram w rest = .error e →
      assembleProgram w ((st, entry) :: rest) = .error e) ∧
    (∀ (sts : List Stmt) (xs : List Input), assembleProgram w (sts.map fun st => (st, none)) = .ok xs →
      ∀ x ∈ xs, x.txReady = false) ∧
    (∀ (lines : List (List Char × Option Bool)) (program : List (Stmt × Option Bool)),
      lines.map (fun l => (parseLine l.1, l.2)) = program.map (fun l => (.ok l.1, l.2)) →
      assembleText w lines = assembleProgram w program) ∧
    (∀ line entry rest e, parseLine line = .error e → assembleText w ((line, entry) :: rest) = .error e) ∧
    (∀ line entry rest st, parseLine line = .ok st →
      (∀ e, assemble w (entry.getD false) st = .error e → assembleText w ((line, entry) :: rest) = .error e) ∧
      (∀ xs e, assemble w (entry.getD false) st = .ok xs → assembleText w rest = .error e →
        assembleText w ((line, entry) :: rest) = .error e) ∧
      (∀ xs ys, assemble w (entry.getD false) st = .ok xs → assembleText w rest = .ok ys →
        assembleText w ((line, entry) :: rest) = .ok (xs ++ ys)))
end

