-- ==== Sys2Proof/Laws/Decode.lean ====
section
/-! SUPPORT. Small lemmas about command words: their bits and their fields. -/

namespace Sys2Proof

/-- Each bit of a command word gathered from the ports (R61). -/
theorem commandOf_getLsbD (d : Word) (e q : Bool) (i : Nat) :
    (commandOf d e q).getLsbD i = if i = 0 then q else if i = 1 then e else d.getLsbD (i - 2) := by
  unfold commandOf
  erw [BitVec.getLsbD_append, BitVec.getLsbD_append]
  rcases i with _ | _ | i <;> simp

theorem cmd_deqReq (x : Input) : x.cmd.getLsbD 0 = x.deqReq := by
  simp only [Input.cmd, commandOf_getLsbD, if_true]

theorem cmd_enqReq (x : Input) : x.cmd.getLsbD 1 = x.enqReq := by
  simp only [Input.cmd, commandOf_getLsbD, one_ne_zero, if_false, if_true]

theorem cmd_enqData (x : Input) (i : Nat) : x.cmd.getLsbD (i + 2) = x.enqData.getLsbD i := by
  rw [Input.cmd, commandOf_getLsbD, if_neg (by omega), if_neg (by omega), Nat.add_sub_cancel]

theorem unitField_getLsbD {w : Nat} (hw : w ≤ 16) (c : Command) (i : Nat) :
    (unitField w c).getLsbD i = (decide (i < w) && c.getLsbD (i + 2)) := by
  by_cases h : i < w
  · have h16 : i < 16 := by omega
    simp [unitField, h, h16, Nat.add_comm]
  · simp [unitField, h]

theorem unitField_fits {w : Nat} (c : Command) : Word.Fits w (unitField w c) := by
  have h := (c.extractLsb' 2 w).isLt
  exact lt_of_le_of_lt (by simpa [unitField] using Nat.mod_le _ _) h

/-! The operation by the two request bits. -/

theorem decode_nop {w : Nat} {c : Command} (h1 : c.getLsbD 1 = false) (h0 : c.getLsbD 0 = false) :
    decode w c = .nop := by simp only [decode, h1, h0]

theorem decode_deq {w : Nat} {c : Command} (h1 : c.getLsbD 1 = false) (h0 : c.getLsbD 0 = true) :
    decode w c = .deq := by simp only [decode, h1, h0]

theorem decode_enq {w : Nat} {c : Command} (h1 : c.getLsbD 1 = true) (h0 : c.getLsbD 0 = false) :
    decode w c = .enq (unitField w c) := by simp only [decode, h1, h0]

theorem decode_enqdeq {w : Nat} {c : Command} (h1 : c.getLsbD 1 = true) (h0 : c.getLsbD 0 = true) :
    decode w c = .enqdeq (unitField w c) := by simp only [decode, h1, h0]

/-- The operation that a cycle's inputs select, by the two request ports (R61, R64). -/
theorem decode_cmd (w : Nat) (x : Input) :
    decode w x.cmd =
      match x.enqReq, x.deqReq with
      | false, false => .nop
      | false, true => .deq
      | true, false => .enq (unitField w x.cmd)
      | true, true => .enqdeq (unitField w x.cmd) := by
  cases h1 : x.enqReq <;> cases h0 : x.deqReq
  · exact decode_nop ((cmd_enqReq x).trans h1) ((cmd_deqReq x).trans h0)
  · exact decode_deq ((cmd_enqReq x).trans h1) ((cmd_deqReq x).trans h0)
  · exact decode_enq ((cmd_enqReq x).trans h1) ((cmd_deqReq x).trans h0)
  · exact decode_enqdeq ((cmd_enqReq x).trans h1) ((cmd_deqReq x).trans h0)

end Sys2Proof
end

