-- ==== Sys2Proof/Laws/State.lean ====
section
/-! SUPPORT. One lemma per field per update of the state, each true by rfl: no later proof unfolds a record update. -/

namespace Sys2Proof.Machine

/-! The edge that ends a cycle with RST = 0. -/

@[simp] theorem clockEdge_params (s : State) (deqReq : Bool) (r : CoreResult) :
    (clockEdge s deqReq r).params = s.params := rfl

@[simp] theorem clockEdge_slots (s : State) (deqReq : Bool) (r : CoreResult) :
    (clockEdge s deqReq r).slots = r.slots := rfl

@[simp] theorem clockEdge_head (s : State) (deqReq : Bool) (r : CoreResult) :
    (clockEdge s deqReq r).head = r.head := rfl

@[simp] theorem clockEdge_count (s : State) (deqReq : Bool) (r : CoreResult) :
    (clockEdge s deqReq r).count = r.count := rfl

@[simp] theorem clockEdge_txie (s : State) (deqReq : Bool) (r : CoreResult) :
    (clockEdge s deqReq r).txie = txieNext r.enqOk deqReq r.count s.txie := rfl

@[simp] theorem clockEdge_initialized (s : State) (deqReq : Bool) (r : CoreResult) :
    (clockEdge s deqReq r).initialized = s.initialized := rfl

@[simp] theorem clockEdge_schedule (s : State) (deqReq : Bool) (r : CoreResult) :
    (clockEdge s deqReq r).schedule = s.schedule.tail := rfl

@[simp] theorem clockEdge_edges (s : State) (deqReq : Bool) (r : CoreResult) :
    (clockEdge s deqReq r).edges = s.edges + 1 := rfl

@[simp] theorem clockEdge_outputs (s : State) (deqReq : Bool) (r : CoreResult) :
    (clockEdge s deqReq r).outputs = outputsOf s r.enqOk r.deqOk r.deqData := rfl

/-! The edge that ends a cycle with RST = 1. -/

@[simp] theorem resetEdge_params (s : State) :
    (resetEdge s).params = s.params := rfl

@[simp] theorem resetEdge_slots (s : State) :
    (resetEdge s).slots = s.slots := rfl

@[simp] theorem resetEdge_head (s : State) :
    (resetEdge s).head = 0 := rfl

@[simp] theorem resetEdge_count (s : State) :
    (resetEdge s).count = 0 := rfl

@[simp] theorem resetEdge_txie (s : State) :
    (resetEdge s).txie = false := rfl

@[simp] theorem resetEdge_initialized (s : State) :
    (resetEdge s).initialized = true := rfl

@[simp] theorem resetEdge_schedule (s : State) :
    (resetEdge s).schedule = s.schedule.tail := rfl

@[simp] theorem resetEdge_edges (s : State) :
    (resetEdge s).edges = s.edges + 1 := rfl

@[simp] theorem resetEdge_outputs (s : State) :
    (resetEdge s).outputs = outputsOf s false false 0 := rfl

/-! The inputs of the coming cycles replaced. -/

@[simp] theorem withSchedule_params (s : State) (xs : List Input) :
    (s.withSchedule xs).params = s.params := rfl

@[simp] theorem withSchedule_slots (s : State) (xs : List Input) :
    (s.withSchedule xs).slots = s.slots := rfl

@[simp] theorem withSchedule_head (s : State) (xs : List Input) :
    (s.withSchedule xs).head = s.head := rfl

@[simp] theorem withSchedule_count (s : State) (xs : List Input) :
    (s.withSchedule xs).count = s.count := rfl

@[simp] theorem withSchedule_txie (s : State) (xs : List Input) :
    (s.withSchedule xs).txie = s.txie := rfl

@[simp] theorem withSchedule_initialized (s : State) (xs : List Input) :
    (s.withSchedule xs).initialized = s.initialized := rfl

@[simp] theorem withSchedule_schedule (s : State) (xs : List Input) :
    (s.withSchedule xs).schedule = xs := rfl

@[simp] theorem withSchedule_edges (s : State) (xs : List Input) :
    (s.withSchedule xs).edges = s.edges := rfl

@[simp] theorem withSchedule_outputs (s : State) (xs : List Input) :
    (s.withSchedule xs).outputs = s.outputs := rfl

/-! A command word put on the ports. -/

@[simp] theorem withFetchWord_params (s : State) (nbits w : Nat) :
    (s.withFetchWord nbits w).params = s.params := rfl

@[simp] theorem withFetchWord_slots (s : State) (nbits w : Nat) :
    (s.withFetchWord nbits w).slots = s.slots := rfl

@[simp] theorem withFetchWord_head (s : State) (nbits w : Nat) :
    (s.withFetchWord nbits w).head = s.head := rfl

@[simp] theorem withFetchWord_count (s : State) (nbits w : Nat) :
    (s.withFetchWord nbits w).count = s.count := rfl

@[simp] theorem withFetchWord_txie (s : State) (nbits w : Nat) :
    (s.withFetchWord nbits w).txie = s.txie := rfl

@[simp] theorem withFetchWord_initialized (s : State) (nbits w : Nat) :
    (s.withFetchWord nbits w).initialized = s.initialized := rfl

@[simp] theorem withFetchWord_schedule (s : State) (nbits w : Nat) :
    (s.withFetchWord nbits w).schedule =
      Input.ofCommand (BitVec.ofNat 18 (w % 2 ^ nbits)) false (sample s).txReady :: s.schedule.tail := rfl

@[simp] theorem withFetchWord_edges (s : State) (nbits w : Nat) :
    (s.withFetchWord nbits w).edges = s.edges := rfl

@[simp] theorem withFetchWord_outputs (s : State) (nbits w : Nat) :
    (s.withFetchWord nbits w).outputs = s.outputs := rfl

/-! A block right after a reset edge. -/

@[simp] theorem afterReset_params (p : Params) (slots : List Word) :
    (State.afterReset p slots).params = p := rfl

@[simp] theorem afterReset_slots (p : Params) (slots : List Word) :
    (State.afterReset p slots).slots = slots := rfl

@[simp] theorem afterReset_head (p : Params) (slots : List Word) :
    (State.afterReset p slots).head = 0 := rfl

@[simp] theorem afterReset_count (p : Params) (slots : List Word) :
    (State.afterReset p slots).count = 0 := rfl

@[simp] theorem afterReset_txie (p : Params) (slots : List Word) :
    (State.afterReset p slots).txie = false := rfl

@[simp] theorem afterReset_initialized (p : Params) (slots : List Word) :
    (State.afterReset p slots).initialized = true := rfl

@[simp] theorem afterReset_schedule (p : Params) (slots : List Word) :
    (State.afterReset p slots).schedule = [] := rfl

@[simp] theorem afterReset_edges (p : Params) (slots : List Word) :
    (State.afterReset p slots).edges = 0 := rfl

@[simp] theorem afterReset_outputs (p : Params) (slots : List Word) :
    (State.afterReset p slots).outputs = Outputs.afterReset := rfl

/-! The same block as another instance. -/

@[simp] theorem inRole_params (s : State) (r : Role) : (s.inRole r).params = { s.params with role := r } := rfl

@[simp] theorem inRole_slots (s : State) (r : Role) : (s.inRole r).slots = s.slots := rfl

@[simp] theorem inRole_head (s : State) (r : Role) : (s.inRole r).head = s.head := rfl

@[simp] theorem inRole_count (s : State) (r : Role) : (s.inRole r).count = s.count := rfl

@[simp] theorem inRole_txie (s : State) (r : Role) : (s.inRole r).txie = s.txie := rfl

@[simp] theorem inRole_initialized (s : State) (r : Role) : (s.inRole r).initialized = s.initialized := rfl

@[simp] theorem inRole_schedule (s : State) (r : Role) : (s.inRole r).schedule = s.schedule := rfl

@[simp] theorem inRole_edges (s : State) (r : Role) : (s.inRole r).edges = s.edges := rfl

@[simp] theorem inRole_outputs (s : State) (r : Role) : (s.inRole r).outputs = s.outputs := rfl

/-! The outputs of a cycle. -/

@[simp] theorem outputsOf_enqOk (s : State) (a b : Bool) (d : Word) : (outputsOf s a b d).enqOk = a := rfl

@[simp] theorem outputsOf_deqOk (s : State) (a b : Bool) (d : Word) : (outputsOf s a b d).deqOk = b := rfl

@[simp] theorem outputsOf_deqData (s : State) (a b : Bool) (d : Word) : (outputsOf s a b d).deqData = d := rfl

@[simp] theorem outputsOf_empty (s : State) (a b : Bool) (d : Word) :
    (outputsOf s a b d).empty = emptyFlag s := rfl

@[simp] theorem outputsOf_txie (s : State) (a b : Bool) (d : Word) : (outputsOf s a b d).txie = s.txie := rfl

@[simp] theorem outputsOf_txIrq (s : State) (a b : Bool) (d : Word) :
    (outputsOf s a b d).txIrq = txIrqFlag s (sample s).txReady := rfl

end Sys2Proof.Machine
end

