-- ==== Sys2Proof/Laws/Ops.lean ====
section
/-! SUPPORT. What each shared operation can do, said once: the refusals, the three core operations, a cycle, a step. -/

namespace Sys2Proof.Machine

/-! The inputs of a cycle. -/

theorem sample_cons {s : State} {x : Input} {xs : List Input} (h : s.schedule = x :: xs) : sample s = x := by
  simp [sample, h]

theorem sample_nil {s : State} (h : s.schedule = []) : sample s = Config.freeInput s.params.role s.edges := by
  simp [sample, h]

theorem sample_congr {s t : State} (hp : t.params = s.params) (hs : t.schedule = s.schedule)
    (he : t.edges = s.edges) :
    sample t = sample s := by
  simp [sample, hp, hs, he]

@[simp] theorem sample_withFetchWord (s : State) (nbits w : Nat) :
    sample (s.withFetchWord nbits w) =
      Input.ofCommand (BitVec.ofNat 18 (w % 2 ^ nbits)) false (sample s).txReady := rfl

/-! The refusals. -/

theorem buildRefusal_eq_none {p : Params} : buildRefusal p = none ↔ p.Legal ∧ p.Spsc := by
  unfold buildRefusal
  by_cases hl : p.Legal
  · by_cases hc : p.Spsc
    · rw [if_neg (not_not.2 hl), if_neg (not_not.2 hc)]
      exact iff_of_true rfl ⟨hl, hc⟩
    · rw [if_neg (not_not.2 hl), if_pos hc]
      exact iff_of_false (by simp) fun h => hc h.2
  · rw [if_pos hl]
    exact iff_of_false (by simp) fun h => hl h.1

theorem cycleRefusal_eq_none {s : State} : cycleRefusal s = none ↔ Ready s := by
  unfold cycleRefusal
  constructor
  · intro h
    split at h
    · cases h
    · rename_i hb
      obtain ⟨hl, hc⟩ := buildRefusal_eq_none.1 hb
      split_ifs at h with hi hr
      exact ⟨hl, hc, by simpa using hi, hr.1, hr.2⟩
  · intro h
    rw [buildRefusal_eq_none.2 ⟨h.legal, h.spsc⟩]
    simp [h.initialized, h.head_lt, h.count_le]

/-- The whole of `runCycle`. -/
theorem runCycle_eq_next {s t : State} {q : Bool} {r : CoreResult} :
    runCycle s q r = .next t ↔ Ready s ∧ t = clockEdge s q r := by
  unfold runCycle
  rw [← cycleRefusal_eq_none]
  cases h : cycleRefusal s with
  | none => simp [eq_comm]
  | some e => simp

theorem runCycle_of_ready {s : State} (h : Ready s) (q : Bool) (r : CoreResult) :
    runCycle s q r = .next (clockEdge s q r) := runCycle_eq_next.2 ⟨h, rfl⟩

/-- The whole of `resetCycle`. -/
theorem resetCycle_eq_next {s t : State} :
    resetCycle s = .next t ↔ (s.params.Legal ∧ s.params.Spsc) ∧ t = resetEdge s := by
  unfold resetCycle
  rw [← buildRefusal_eq_none]
  cases h : buildRefusal s.params with
  | none => simp [eq_comm]
  | some e => simp

/-! The three core operations, case by case. -/

theorem coreEnqueue_of_lt {s : State} (h : s.count < s.params.cap) (v : Word) :
    coreEnqueue s v =
      { coreIdle s with slots := slotWrite s (tail s) v, count := s.count + 1, enqOk := true } := if_pos h

theorem coreEnqueue_of_not_lt {s : State} (h : ¬ s.count < s.params.cap) (v : Word) :
    coreEnqueue s v = coreIdle s := if_neg h

theorem coreDequeue_of_pos {s : State} (h : 0 < s.count) :
    coreDequeue s =
      { coreIdle s with head := headNext s, count := s.count - 1, deqOk := true, deqData := slotRead s s.head } :=
  if_pos h

theorem coreDequeue_of_not_pos {s : State} (h : ¬ 0 < s.count) : coreDequeue s = coreIdle s := if_neg h

/-- ENQDEQ on an empty queue: the enqueue alone (R85). -/
theorem coreBoth_of_empty {s : State} (he : s.count = 0) (hc : 0 < s.params.cap) (v : Word) :
    coreBoth s v = coreEnqueue s v := by
  simp [coreBoth, coreEnqueue_of_lt (by omega : s.count < s.params.cap), coreDequeue_of_not_pos (by omega : ¬ 0 < s.count),
    coreIdle, b2n]

/-- ENQDEQ on a full queue: the dequeue alone (R85). -/
theorem coreBoth_of_full {s : State} (hf : s.count = s.params.cap) (hc : 0 < s.params.cap) (v : Word) :
    coreBoth s v = coreDequeue s := by
  simp [coreBoth, coreEnqueue_of_not_lt (by omega : ¬ s.count < s.params.cap), coreDequeue_of_pos (by omega : 0 < s.count),
    coreIdle, b2n]

/-- ENQDEQ on a partly full queue: both succeed (R85). -/
theorem coreBoth_of_partly {s : State} (h0 : 0 < s.count) (hc : s.count < s.params.cap) (v : Word) :
    coreBoth s v =
      { slots := slotWrite s (tail s) v, head := headNext s, count := s.count, enqOk := true, deqOk := true,
        deqData := slotRead s s.head } := by
  simp [coreBoth, coreEnqueue_of_lt hc, coreDequeue_of_pos h0, coreIdle, b2n]

/-! What an instruction can do. -/

/-- The consumer's request bit of an instruction: `CMD[0]` (R110). -/
def deqReqOf : Instr → Bool
  | .nop => false
  | .deq => true
  | .enq _ => false
  | .enqdeq _ => true
  | .isEmpty => false

/-- What the queue core does for an instruction. -/
def coreOf (s : State) : Instr → CoreResult
  | .nop => coreIdle s
  | .deq => coreDequeue s
  | .enq v => coreEnqueue s v
  | .enqdeq v => coreBoth s v
  | .isEmpty => coreIdle s

theorem exec_eq_runCycle (i : Instr) (s : State) : exec i s = runCycle s (deqReqOf i) (coreOf s i) := by
  cases i <;> rfl

/-- The whole of `exec`. -/
theorem exec_eq_next {i : Instr} {s t : State} :
    exec i s = .next t ↔ Ready s ∧ t = clockEdge s (deqReqOf i) (coreOf s i) := by
  rw [exec_eq_runCycle, runCycle_eq_next]

theorem exec_of_ready {s : State} (h : Ready s) (i : Instr) :
    exec i s = .next (clockEdge s (deqReqOf i) (coreOf s i)) := exec_eq_next.2 ⟨h, rfl⟩

/-- The four things the core can do in a cycle of a ready block: nothing, an enqueue alone, a dequeue alone, both. -/
theorem coreOf_cases {s : State} (h : Ready s) (i : Instr) :
    (coreOf s i = coreIdle s ∧ (deqReqOf i = true → s.count = 0)) ∨
    (∃ v, (i = .enq v ∨ i = .enqdeq v) ∧ s.count < s.params.cap ∧ (deqReqOf i = true → s.count = 0) ∧
      coreOf s i =
        { coreIdle s with slots := slotWrite s (tail s) v, count := s.count + 1, enqOk := true }) ∨
    (0 < s.count ∧ deqReqOf i = true ∧
      coreOf s i =
        { coreIdle s with head := headNext s, count := s.count - 1, deqOk := true,
                          deqData := slotRead s s.head }) ∨
    (∃ v, i = .enqdeq v ∧ 0 < s.count ∧ s.count < s.params.cap ∧
      coreOf s i =
        { slots := slotWrite s (tail s) v, head := headNext s, count := s.count, enqOk := true, deqOk := true,
          deqData := slotRead s s.head }) := by
  have hcap := h.legal.1
  have hle := h.count_le
  cases i with
  | nop => exact .inl ⟨rfl, by simp [deqReqOf]⟩
  | isEmpty => exact .inl ⟨rfl, by simp [deqReqOf]⟩
  | deq =>
    by_cases h0 : 0 < s.count
    · exact .inr (.inr (.inl ⟨h0, rfl, coreDequeue_of_pos h0⟩))
    · exact .inl ⟨coreDequeue_of_not_pos h0, fun _ => by omega⟩
  | enq v =>
    by_cases hc : s.count < s.params.cap
    · exact .inr (.inl ⟨v, .inl rfl, hc, by simp [deqReqOf], coreEnqueue_of_lt hc v⟩)
    · exact .inl ⟨coreEnqueue_of_not_lt hc v, by simp [deqReqOf]⟩
  | enqdeq v =>
    by_cases h0 : 0 < s.count
    · by_cases hc : s.count < s.params.cap
      · exact .inr (.inr (.inr ⟨v, rfl, h0, hc, coreBoth_of_partly h0 hc v⟩))
      · exact .inr (.inr (.inl ⟨h0, rfl,
          (coreBoth_of_full (by omega) hcap v).trans (coreDequeue_of_pos h0)⟩))
    · have he : s.count = 0 := by omega
      exact .inr (.inl ⟨v, .inr rfl, by omega, fun _ => he,
        (coreBoth_of_empty he hcap v).trans (coreEnqueue_of_lt (by omega) v)⟩)

/-! What a step can do. -/

theorem step_of_rst {s : State} (h : (sample s).rst = true) : step s = resetCycle s := by simp [step, h]

theorem step_of_not_rst {s : State} (h : (sample s).rst = false) :
    step s = exec (decode s.params.w (sample s).cmd) s := by simp [step, h]

/-- The two ways a step answers a next state: a reset cycle of a rightly built block, or the decoded instruction's
cycle of a ready one. -/
theorem step_cases {s t : State} (h : step s = .next t) :
    ((sample s).rst = true ∧ s.params.Legal ∧ s.params.Spsc ∧ t = resetEdge s) ∨
    ((sample s).rst = false ∧ Ready s ∧
      t = clockEdge s (deqReqOf (decode s.params.w (sample s).cmd))
        (coreOf s (decode s.params.w (sample s).cmd))) := by
  cases hr : (sample s).rst with
  | true =>
    rw [step_of_rst hr] at h
    obtain ⟨⟨hl, hc⟩, rfl⟩ := resetCycle_eq_next.1 h
    exact .inl ⟨rfl, hl, hc, rfl⟩
  | false =>
    rw [step_of_not_rst hr] at h
    obtain ⟨hs, rfl⟩ := exec_eq_next.1 h
    exact .inr ⟨rfl, hs, rfl⟩

theorem step_of_ready {s : State} (h : Ready s) (hr : (sample s).rst = false) :
    step s = .next (clockEdge s (deqReqOf (decode s.params.w (sample s).cmd))
      (coreOf s (decode s.params.w (sample s).cmd))) := by
  rw [step_of_not_rst hr, exec_of_ready h]

/-! A run. -/

theorem trace_zero (s : State) : trace 0 s = some ([], s) := rfl

/-- One cycle and then the rest. -/
theorem trace_succ_eq_some {k : Nat} {s u : State} {es : List Event} :
    trace (k + 1) s = some (es, u) ↔
      ∃ t fs, step s = .next t ∧ trace k t = some (fs, u) ∧ es = ⟨sample s, t.outputs⟩ :: fs := by
  simp only [trace]
  cases hs : step s with
  | fault e => cases e
  | refused e => simp
  | next t =>
    cases ht : trace k t with
    | none => simp [ht]
    | some p =>
      obtain ⟨fs, v⟩ := p
      simp [ht, eq_comm, and_comm]

/-! Checks that decide, for concrete states. -/

theorem Ready.of_check {s : State}
    (h : decide (s.params.Legal ∧ s.params.Spsc ∧ s.initialized = true ∧ s.head < s.params.cap ∧
      s.count ≤ s.params.cap) = true) : Ready s := by
  obtain ⟨a, b, c, d, e⟩ := of_decide_eq_true h
  exact ⟨a, b, c, d, e⟩

theorem Shaped.of_check {s : State}
    (h : (s.slots.length == s.params.cap && s.slots.all fun v => Nat.blt v.toNat (Nat.pow 2 s.params.w)) = true) :
    Shaped s := by
  rw [Bool.and_eq_true, List.all_eq_true] at h
  exact ⟨by simpa using h.1, fun v hv => Nat.blt_eq.mp (h.2 v hv)⟩

theorem BlockInv.of_check {s : State} (hr : Ready s) (hs : Shaped s)
    (h : (s.txie == decide (s.count ≠ 0)) = true) : BlockInv s := ⟨hr, hs, by simpa using h⟩

end Sys2Proof.Machine
end

