-- ==== Sys2Proof/Laws/PerInstr.lean ====
section
/-! SUPPORT. One lemma per instruction: its command word carries the request bits of its row of
spec/opcode_table.json. -/

namespace Sys2Proof.Laws.TableRow

/-- The `match` number of the row that the instruction's word belongs to (R64; R70 for IS_EMPTY). -/
def matchOf : Instr → Command
  | .nop => 0
  | .deq => 1
  | .enq _ => 2
  | .enqdeq _ => 3
  | .isEmpty => 0

/-- The instruction's word agrees with its row under the row's mask, 3. -/
def Statement (i : Instr) : Prop := encode i &&& 3 = matchOf i

theorem nop : Statement .nop := show encode .nop &&& 3 = 0 by decide

theorem deq : Statement .deq := show encode .deq &&& 3 = 1 by decide

theorem low_bits (v : Word) (m : Command) (hm : m.toNat < 4) : ((v.setWidth 18 <<< 2) ||| m) &&& 3 = m := by
  apply BitVec.eq_of_getLsbD_eq
  intro i hi
  have h3 : (3 : Command).getLsbD i = decide (i < 2) := by
    revert i
    decide
  rw [BitVec.getLsbD_and, BitVec.getLsbD_or, h3]
  by_cases h : i < 2
  · simp [h]
  · have hmi : m.getLsbD i = false :=
      Nat.testBit_lt_two_pow (lt_of_lt_of_le hm (Nat.pow_le_pow_right (by decide : 0 < 2) (by omega : 2 ≤ i)))
    rw [hmi]
    simp [h]

theorem enq (v : Word) : Statement (.enq v) := low_bits v 2 (by decide)

theorem enqdeq (v : Word) : Statement (.enqdeq v) := low_bits v 3 (by decide)

theorem isEmpty : Statement .isEmpty := show encode .isEmpty &&& 3 = 0 by decide

end Sys2Proof.Laws.TableRow
end

