-- ==== Sys2Proof/Laws/Queue.lean ====
section
/-! SUPPORT. The slot array and the queue contents Q(s) (spec/10_state.md R23 to R25): read after write, the shape a
write keeps, and what an accepted enqueue and a successful dequeue do to Q(s). -/

namespace Sys2Proof.Machine

/-! The slot array. -/

theorem length_slotWrite (s : State) (i : Nat) (v : Word) : (slotWrite s i v).length = s.slots.length := by
  simp [slotWrite]

theorem getD_slotWrite_self {s : State} {i : Nat} (h : i < s.slots.length) (v : Word) :
    (slotWrite s i v).getD i 0 = v := by
  simp [slotWrite, List.getD_eq_getElem?_getD, h]

theorem getD_slotWrite_of_ne {s : State} {i j : Nat} (h : j ≠ i) (v : Word) :
    (slotWrite s i v).getD j 0 = slotRead s j := by
  simp [slotWrite, slotRead, List.getD_eq_getElem?_getD, List.getElem?_set_ne (Ne.symm h)]

/-- A write keeps the shape of the slot array. -/
theorem slotWrite_keeps_shape {s : State} (h : Shaped s) (i : Nat) {v : Word} (hv : Word.Fits s.params.w v) :
    (slotWrite s i v).length = s.params.cap ∧ ∀ u ∈ slotWrite s i v, Word.Fits s.params.w u := by
  refine ⟨by rw [length_slotWrite, h.length], fun u hu => ?_⟩
  rcases List.mem_or_eq_of_mem_set hu with hu | rfl
  · exact h.fits u hu
  · exact hv

/-- A slot of a shaped array holds a unit of the block's width. -/
theorem slotRead_fits {s : State} (h : Shaped s) (i : Nat) : Word.Fits s.params.w (slotRead s i) := by
  unfold slotRead
  rw [List.getD_eq_getElem?_getD]
  cases hi : s.slots[i]? with
  | none => exact Nat.two_pow_pos _
  | some u => exact h.fits u (List.mem_of_getElem? hi)

/-! Indices. -/

theorem tail_lt {s : State} (h : 0 < s.params.cap) : tail s < s.params.cap := Nat.mod_lt _ h

theorem headNext_lt {s : State} (h : 0 < s.params.cap) : headNext s < s.params.cap := Nat.mod_lt _ h

/-- Two offsets less than CAP apart index different slots. -/
theorem index_ne {cap a j k : Nat} (hjk : j < k) (hk : k < j + cap) : (a + j) % cap ≠ (a + k) % cap := by
  intro h
  have hd := (Nat.modEq_iff_dvd' (by omega : a + j ≤ a + k)).1 h
  have := Nat.le_of_dvd (by omega) hd
  omega

/-- The write index and the read index of an ENQDEQ differ whenever both succeed (R85). -/
theorem tail_ne_head {s : State} (hh : s.head < s.params.cap) (h0 : 0 < s.count) (hc : s.count < s.params.cap) :
    tail s ≠ s.head := by
  have h := index_ne (a := s.head) (cap := s.params.cap) h0 (by omega)
  rw [Nat.add_zero, Nat.mod_eq_of_lt hh] at h
  exact h.symm

/-! Q(s). -/

@[simp] theorem length_queue (s : State) : (queue s).length = s.count := by simp [queue]

theorem queue_congr {s t : State} (hp : t.params = s.params) (hl : t.slots = s.slots) (hh : t.head = s.head)
    (hc : t.count = s.count) : queue t = queue s := by
  simp [queue, slotRead, hp, hl, hh, hc]

theorem queue_of_empty {s : State} (h : s.count = 0) : queue s = [] := by simp [queue, h]

/-- An accepted enqueue appends its unit to Q(s). -/
theorem queue_enqueue {s t : State} (hr : Ready s) (hl : s.slots.length = s.params.cap) {v : Word}
    (hc : s.count < s.params.cap) (tp : t.params = s.params) (ts : t.slots = slotWrite s (tail s) v)
    (th : t.head = s.head) (tc : t.count = s.count + 1) : queue t = queue s ++ [v] := by
  have ht : tail s < s.slots.length := hl ▸ tail_lt hr.legal.1
  rw [queue, tc, List.range_succ, List.map_append, List.map_singleton]
  congr 1
  · refine List.map_congr_left fun k hk => ?_
    have hk' := List.mem_range.1 hk
    have hne : (s.head + k) % s.params.cap ≠ tail s := index_ne hk' (by omega)
    rw [slotRead, ts, tp, th, getD_slotWrite_of_ne hne]
  · rw [slotRead, ts, tp, th]
    exact congrArg (fun x => [x]) (getD_slotWrite_self ht v)

/-- A successful dequeue takes the first unit from Q(s). -/
theorem queue_dequeue {s t : State} (hr : Ready s) (h0 : 0 < s.count) (tp : t.params = s.params)
    (ts : t.slots = s.slots) (th : t.head = headNext s) (tc : t.count = s.count - 1) :
    queue s = slotRead s s.head :: queue t := by
  obtain ⟨n, hn⟩ := Nat.exists_eq_succ_of_ne_zero (Nat.ne_of_gt h0)
  have tn : t.count = n := by omega
  rw [queue, queue, hn, tn, List.range_succ_eq_map, List.map_cons, List.map_map, Nat.add_zero,
    Nat.mod_eq_of_lt hr.head_lt]
  congr 1
  refine List.map_congr_left fun k _ => ?_
  simp only [Function.comp, slotRead, ts, tp, th, headNext, Nat.mod_add_mod]
  congr 2
  omega

/-- An enqueue and a dequeue that both succeed in one cycle. -/
theorem queue_both {s t : State} (hr : Ready s) (hl : s.slots.length = s.params.cap) {v : Word} (h0 : 0 < s.count)
    (hc : s.count < s.params.cap) (tp : t.params = s.params) (ts : t.slots = slotWrite s (tail s) v)
    (th : t.head = headNext s) (tc : t.count = s.count) :
    queue s ++ [v] = slotRead s s.head :: queue t := by
  let b : State := { s with slots := slotWrite s (tail s) v, count := s.count + 1 }
  have hb : Ready b := ⟨hr.legal, hr.spsc, hr.initialized, hr.head_lt, hc⟩
  have hq : queue b = queue s ++ [v] := queue_enqueue hr hl hc rfl rfl rfl rfl
  have hread : slotRead b b.head = slotRead s s.head := getD_slotWrite_of_ne (tail_ne_head hr.head_lt h0 hc).symm v
  rw [← hq, queue_dequeue hb (Nat.succ_pos _) (t := t) tp ts th tc, hread]

end Sys2Proof.Machine
end

