-- ==== Sys2Proof/Tests/Slice0.lean ====
section
/-! SUPPORT. Tests of the model. Expected values are the hand-worked vectors of spec/95_test_vectors.md, named in each
comment, or read off the rule named there. Then, for every obligation with hypotheses, a state that meets them. -/

namespace Sys2Proof.Tests

open Sys2Proof.Machine

/-! ## States -/

/-- A reset block of capacity `cap` and width `w` that holds the given slots. -/
def blk (cap w head count : Nat) (txie : Bool) (slots : List Word) (xs : List Input) : State :=
  { State.afterReset { cap := cap, w := w, producers := 1, consumers := 1, role := .echo } slots with
    head := head, count := count, txie := txie, schedule := xs }

/-- Sixteen slots, slot `i` holding `0x100 + i`. -/
def slots16 : List Word := (List.range 16).map fun i => BitVec.ofNat 16 (0x100 + i)

/-- The default block with `slots16`, in the state `(head, count, txie)`. -/
def at16 (head count : Nat) (txie : Bool) (xs : List Input) : State := blk 16 16 head count txie slots16 xs

/-- A cycle that presents the command word `c`, RST = 0. -/
def run (c : Command) (txReady : Bool) : Input := Input.ofCommand c false txReady

/-- A reset cycle that presents the command word `c`. -/
def rst (c : Command) (txReady : Bool) : Input := Input.ofCommand c true txReady

/-- The next state, if there is one. -/
def nextOf (o : Host.Outcome State Fault Refusal) : Option State :=
  match o with
  | .next t => some t
  | .fault _ => none
  | .refused _ => none

/-- The reason of a refusal, if it is one. -/
def refusalOf (o : Host.Outcome State Fault Refusal) : Option Refusal :=
  match o with
  | .next _ => none
  | .fault _ => none
  | .refused r => some r

/-- `(head, count, txie)` and `(ENQ_OK, DEQ_OK, DEQ_DATA)` after one step. -/
def shown (o : Host.Outcome State Fault Refusal) : Option ((Nat × Nat × Bool) × Bool × Bool × Word) :=
  (nextOf o).map fun t => ((t.head, t.count, t.txie), t.outputs.enqOk, t.outputs.deqOk, t.outputs.deqData)

/-! ## Command words, written out bit by bit from R62 and R64 -/

/-- ENC-1: no request bit set. -/
theorem test_decode_nop : decode 16 0b0000000000000000_0_0 = .nop := by decide

/-- ENC-8: NOP with data bits set. -/
theorem test_decode_nop_ignores_data : decode 16 0b1111111111111111_0_0 = .nop := by decide

/-- ENC-2: CMD[0] alone. -/
theorem test_decode_deq : decode 16 0b0000000000000000_0_1 = .deq := by decide

/-- ENC-9: DEQ with data bits set. -/
theorem test_decode_deq_ignores_data : decode 16 0b1111111111111111_0_1 = .deq := by decide

/-- ENC-3: CMD[1] alone, d = 0x0041. -/
theorem test_decode_enq : decode 16 0b0000000001000001_1_0 = .enq 0x0041 := by decide

/-- ENC-6: both request bits, d = 0x0055. -/
theorem test_decode_enqdeq : decode 16 0b0000000001010101_1_1 = .enqdeq 0x0055 := by decide

/-- ENC-10 and ENC-11: W = 9, 11-bit words. -/
theorem test_decode_w9 :
    decode 9 0b111111111_1_0 = .enq 0x1FF ∧ decode 9 0b010101010_1_1 = .enqdeq 0x0AA := by decide

/-- R70: IS_EMPTY has the word of NOP. -/
theorem test_encode_isEmpty : encode .isEmpty = 0 := by decide

/-- ENC-5 and ENC-7, encoded. -/
theorem test_encode_enq_enqdeq : encode (.enq 0xFFFF) = 0x3FFFE ∧ encode (.enqdeq 0x8888) = 0x22223 := by decide

/-- R61: each port to its bit. -/
theorem test_ports_to_word :
    ({ rst := false, enqReq := true, enqData := 0x0041, deqReq := false, txReady := true } : Input).cmd = 0x00106 := by
  decide

/-- R67: a word that is wider than `W + 2` bits is refused by name. -/
theorem test_decode_too_wide : decodeNat 9 0x800 = .error .widerThanCommand ∧
    decodeNat 16 0x40000 = .error .widerThanCommand := by decide

/-- The rows of the opcode table, as the host numbers them. -/
theorem test_decodeTableWord : decodeTableWord 24 0 = some .nop ∧ decodeTableWord 24 1 = some .deq ∧
    decodeTableWord 24 2 = some (.enq 0) ∧ decodeTableWord 24 3 = some (.enqdeq 0) := by decide

/-! ## WellFormed: an ill-formed term for each check -/

/-- R69: a unit of 10 bits in a block with W = 9. -/
theorem test_wf_refuses_wide_enq : Instr.wf 9 (.enq 0x200) = false := by decide

theorem test_wf_refuses_wide_enqdeq : Instr.wf 9 (.enqdeq 0x200) = false := by decide

theorem test_wf_accepts_boundary : Instr.wf 9 (.enq 0x1FF) = true ∧ Instr.wf 9 (.enqdeq 0x1FF) = true ∧
    Instr.wf 9 .nop = true ∧ Instr.wf 9 .deq = true ∧ Instr.wf 9 .isEmpty = true := by decide

/-! ## One step of each instruction -/

/-- NOP-2. -/
theorem test_nop : shown (step (at16 5 3 true [run 0x3FFFC false])) = some ((5, 3, true), false, false, 0) := by decide

/-- ENQ-3: the tail wraps to slot 0. -/
theorem test_enq_tail_wrap : shown (step (at16 14 2 true [run 0x3FFFE false])) = some ((14, 3, true), true, false, 0) ∧
    (nextOf (step (at16 14 2 true [run 0x3FFFE false]))).map (fun t => t.slots.getD 0 0) = some 0xFFFF := by decide

/-- ENQ-5: dropped, and the oldest unit is not overwritten. -/
theorem test_enq_full : shown (step (at16 5 16 true [run 0x048D2 false])) = some ((5, 16, true), false, false, 0) ∧
    (nextOf (step (at16 5 16 true [run 0x048D2 false]))).map (fun t => t.slots) = some slots16 := by decide

/-- DEQ-2: the head wraps; slots16 holds 0x10F in slot 15. -/
theorem test_deq_head_wrap :
    shown (step (at16 15 2 true [run 0x00001 false])) = some ((0, 1, true), false, true, 0x10F) := by decide

/-- DEQ-3 with `txie` left standing, a state no run reaches: R110 clears it. -/
theorem test_deq_empty : shown (step (at16 7 0 true [run 0x00001 false])) = some ((7, 0, false), false, false, 0) := by
  decide

/-- ED-1: no bypass. -/
theorem test_enqdeq_empty :
    shown (step (at16 7 0 false [run 0x00157 false])) = some ((7, 1, true), true, false, 0) := by decide

/-- ED-4: both indices wrap, CAP = 4 and W = 9 as in c8 of program P3: write to slot 1, read of slot 2. -/
theorem test_enqdeq_middle :
    shown (step (blk 4 9 2 3 true [0x004, 0x001, 0x002, 0x003] [run 0x01B false])) =
      some ((3, 3, true), true, true, 0x002) ∧
    (nextOf (step (blk 4 9 2 3 true [0x004, 0x001, 0x002, 0x003] [run 0x01B false]))).map (fun t => t.slots) =
      some [0x004, 0x006, 0x002, 0x003] := by decide

/-- ED-5: CAP = 1, full; the dequeue alone, and `txie` falls (G-12). -/
theorem test_enqdeq_cap1_full :
    shown (step (blk 1 16 0 1 true [0x0001] [run 0x0000B false])) = some ((0, 0, false), false, true, 0x0001) := by decide

/-- EMP-1 and EMP-2: EMPTY at the start of the cycle. -/
theorem test_isEmpty : (nextOf (exec .isEmpty (at16 7 0 false []))).map (fun t => t.outputs.empty) = some true ∧
    (nextOf (exec .isEmpty (at16 7 1 true []))).map (fun t => t.outputs.empty) = some false := by decide

/-! ## Reset, refusals, interrupt, the host's words -/

/-- RST-1 and RST-2: outputs of the reset cycle and the state after it. -/
theorem test_reset_cycle :
    shown (step (at16 9 4 true [rst 0x00003 true])) = some ((0, 0, false), false, false, 0) ∧
    (nextOf (step (at16 9 4 true [rst 0x00003 true]))).map (fun t =>
      (t.outputs.empty, t.outputs.txie, t.outputs.txIrq)) = some (false, true, true) := by decide

/-- RST-4: before any reset. -/
theorem test_power_on_refused :
    refusalOf (step ((State.powerOn Params.default slots16 3 20 true).withSchedule [run 0 false])) =
      some .beforeFirstReset := by decide

/-- R152: a reset edge makes any power-on state the reset state. -/
theorem test_power_on_reset :
    shown (step ((State.powerOn Params.default slots16 3 20 true).withSchedule [rst 0 false])) =
      some ((0, 0, false), false, false, 0) := by decide

/-- IRQ-1 to IRQ-4. -/
theorem test_txIrq : ((nextOf (step (at16 0 1 true [run 0 true]))).map fun t => t.outputs.txIrq) = some true ∧
    ((nextOf (step (at16 0 1 true [run 0 false]))).map fun t => t.outputs.txIrq) = some false ∧
    ((nextOf (step (at16 0 0 false [run 0 true]))).map fun t => t.outputs.txIrq) = some false := by decide

/-- U6, U7, U3. -/
theorem test_refusals : refusalOf (step (blk 0 16 0 0 false [] [run 0 false])) = some .badParameters ∧
    refusalOf (step (blk 16 8 0 0 false slots16 [run 0 false])) = some .badParameters ∧
    refusalOf (step { at16 0 0 false [run 0 false] with params := { Params.default with producers := 2 } }) =
      some .brokenSpscContract ∧
    refusalOf (step (at16 16 0 false [run 0 false])) = some .stateOutOfRange := by decide

/-- The host's word runs as the first instruction after reset: ENQ 0x0041. -/
theorem test_withFetchWord : shown (step (State.reset.withFetchWord 24 0x00106)) = some ((0, 1, true), true, false, 0) := by
  decide

/-! ## The assembler -/

/-- R69: a label, a hexadecimal immediate, a comment (a line like c1 of program P1). -/
theorem test_parse_line : parseLine ['c', '1', ':', ' ', 'E', 'N', 'Q', ' ', '0', 'x', '4', '1', ' ', ';', 'T'] =
    .ok (.enq 0x41) := by decide

/-- R70: FILL with its comma (c1 of program P2). -/
theorem test_parse_fill : parseLine ['F', 'I', 'L', 'L', ' ', '2', '0', ',', ' ', '0', 'x', '1', '0', '0'] =
    .ok (.fill 20 0x100) := by decide

/-- R69: TX_READY is 0 where the column has no entry (c0 and c1 of program P1, the second with its column). -/
theorem test_assemble_text :
    (assembleText 16 [(['R', 'E', 'S', 'E', 'T'], none),
      (['c', '1', ':', ' ', 'E', 'N', 'Q', ' ', '0', 'x', '4', '1'], some true)]).map
        (fun xs => xs.map fun x => (x.rst, x.cmd, x.txReady)) =
      .ok [(true, 0x00000, false), (false, 0x00106, true)] := by decide

/-- Line c3 of program P4, shortened: no production of R69. -/
theorem test_parse_raw_cycle : parseLine ['c', '3', ':', '(', 'R', 'S', 'T', '=', '1', ')'] = .error .notAStatement := by
  decide

/-- R69: mnemonics are upper case. -/
theorem test_parse_lower_case : parseLine ['n', 'o', 'p'] = .error .notAStatement := by decide

/-- ENC-12. -/
theorem test_assemble_too_wide : assemble 16 false (.enq 0x10000) = .error .immediateTooWide := by decide

/-- Program P2: command words 0x00402, 0x00406, 0x0040A. -/
theorem test_assemble_fill :
    (assemble 16 false (.fill 3 0x100)).map (fun xs => xs.map Input.cmd) = .ok [0x00402, 0x00406, 0x0040A] := by decide

/-! ## Every hypothesis is met: one state for each kind of premise -/

theorem ready_empty : Ready (at16 7 0 false []) := Ready.of_check (by decide)

theorem ready_last_free : Ready (at16 15 15 true []) := Ready.of_check (by decide)

theorem ready_full : Ready (at16 2 16 true []) := Ready.of_check (by decide)

theorem shaped_at16 : Shaped (at16 7 0 false []) := Shaped.of_check rfl

theorem inv_empty : BlockInv (at16 7 0 false []) := BlockInv.of_check ready_empty shaped_at16 (by decide)

theorem inv_one : BlockInv (at16 0 1 true [rst 0 true]) :=
  BlockInv.of_check (Ready.of_check (by decide)) (Shaped.of_check rfl) (by decide)

/-- EncoderAndDecoderAreInverse, UnitOperandIsItsFieldUnchanged: both ends of W, words and units at their bounds, each
residue of a word, CMD[1] set and clear. -/
theorem witness_encoding : Word.Fits 9 0x1FF ∧ Word.Fits 16 0xFFFF ∧ Instr.wf 9 (.enqdeq 0x1FF) = true ∧
    Instr.isEmpty.wf 16 = true ∧ (0x7FF : Command).toNat < 2 ^ (9 + 2) ∧ (0x3FFFF : Command).toNat < 2 ^ (16 + 2) ∧
    (0x3FFFC : Command).toNat % 4 = 0 ∧ (0x3FFFD : Command).toNat % 4 = 1 ∧ (0x3FFFE : Command).toNat % 4 = 2 ∧
    (0x3FFFF : Command).toNat % 4 = 3 ∧ (0x00002 : Command).getLsbD 1 = true ∧ (0x00001 : Command).toNat / 4 = 0 := by
  decide

/-- EveryWordIsLegalAndIdleDataIsIgnored: a ready state, and two words that differ in their data bits only. -/
theorem witness_EveryWordIsLegalAndIdleDataIsIgnored : Ready (at16 15 15 true []) ∧
    (0x3FFFC : Command).getLsbD 1 = false ∧ (0x00000 : Command).getLsbD 1 = false ∧
    (0x00000 : Command).getLsbD 0 = (0x3FFFC : Command).getLsbD 0 := ⟨ready_last_free, by decide⟩

/-- StepRunsTheDecodedInstruction: a scheduled cycle with RST = 0, and an empty schedule. -/
theorem witness_StepRunsTheDecodedInstruction :
    (at16 7 0 false [run 0x00157 true]).schedule = [run 0x00157 true] ∧ (run 0x00157 true).rst = false ∧
    (at16 7 0 false []).schedule = [] := by decide

/-- The result statements (R82 to R86), R130, R88, R44, R48, R24, R110: every case at its boundary counts. -/
theorem witness_results : (Ready (at16 7 0 false []) ∧ (at16 7 0 false []).count = 0) ∧
    (Ready (at16 15 15 true []) ∧ 0 < (at16 15 15 true []).count ∧
      (at16 15 15 true []).count < (at16 15 15 true []).params.cap) ∧
    (Ready (at16 2 16 true []) ∧ (at16 2 16 true []).count = (at16 2 16 true []).params.cap) ∧
    Shaped (at16 7 0 false []) :=
  ⟨⟨ready_empty, by decide⟩, ⟨ready_last_free, by decide⟩, ⟨ready_full, by decide⟩, shaped_at16⟩

/-- NopChangesNothing, third clause: two cycles with no request. -/
theorem witness_NopChangesNothing : ∃ es t,
    trace 2 (at16 5 3 true [run 0x3FFFC true, run 0 false]) = some (es, t) ∧
    ∀ e ∈ es, e.input.rst = false ∧ e.input.enqReq = false ∧ e.input.deqReq = false := ⟨_, _, rfl, by decide⟩

/-- The two frames: each instruction completes; the enqueue accepted and dropped. -/
theorem witness_frames : (∃ t, exec .nop (at16 7 0 false []) = .next t) ∧
    (∃ t, exec .isEmpty (at16 7 0 false []) = .next t) ∧
    ((∃ t, exec .deq (at16 7 0 false []) = .next t) ∧ (at16 7 0 false []).count = 0) ∧
    (∃ t, exec .deq (at16 15 15 true []) = .next t) ∧
    ((∃ t, exec (.enq 5) (at16 7 0 false []) = .next t) ∧ ∃ a, a ≠ tail (at16 7 0 false [])) ∧
    ((∃ t, exec (.enq 5) (at16 2 16 true []) = .next t) ∧
      (at16 2 16 true []).count = (at16 2 16 true []).params.cap) ∧
    ((∃ t, exec (.enqdeq 5) (at16 7 0 false []) = .next t) ∧ (at16 7 0 false []).count = 0) ∧
    ∃ t, exec (.enqdeq 5) (at16 2 16 true []) = .next t :=
  ⟨⟨_, rfl⟩, ⟨_, rfl⟩, ⟨⟨_, rfl⟩, rfl⟩, ⟨_, rfl⟩, ⟨⟨_, rfl⟩, 0, by decide⟩, ⟨⟨_, rfl⟩, rfl⟩, ⟨⟨_, rfl⟩, rfl⟩, ⟨_, rfl⟩⟩

/-- OnlyAnAcceptedEnqueueWritesASlot: a step that changes a slot. -/
theorem witness_OnlyAnAcceptedEnqueueWritesASlot : Shaped (at16 7 0 false [run 0x00106 false]) ∧
    ∃ t, step (at16 7 0 false [run 0x00106 false]) = .next t ∧ t.outputs.enqOk = true ∧
      slotRead t 7 ≠ slotRead (at16 7 0 false [run 0x00106 false]) 7 :=
  ⟨Shaped.of_check rfl, _, rfl, by decide, by decide⟩

/-- HeadAndCountFollowTheOutcomes, EmptyOutputAndIsEmpty, TxIrqIsGatedByTxie, TxieFollowsTheUpdateRule,
TxieIsWrittenByNothingElse: a step of each kind, and two in a row; `txie` changes in both. -/
theorem witness_steps :
    (∃ t u, (sample (at16 0 0 false [run 0x00106 true, rst 0 true])).rst = false ∧
      step (at16 0 0 false [run 0x00106 true, rst 0 true]) = .next t ∧ t.txie ≠ false ∧
      (sample t).rst = true ∧ step t = .next u ∧ u.txie ≠ t.txie) ∧
    (at16 0 0 false []).txie = false :=
  ⟨⟨_, _, rfl, rfl, by decide, rfl, rfl, by decide⟩, rfl⟩

/-- BuildParametersAreFixed: a run from a block that has been reset. -/
theorem witness_BuildParametersAreFixed : (at16 0 1 true [rst 0 true]).initialized = true ∧
    ∃ es t, trace 1 (at16 0 1 true [rst 0 true]) = some (es, t) := ⟨rfl, _, _, rfl⟩

/-- StepIsTheWholeCycleFunction, ResetCycle, CyclesBeforeTheFirstResetAreRefused: a never reset block with indices out of
range, in a reset cycle and in one with RST = 0; two reset cycles in a row; a ready block. -/
theorem witness_reset : Params.default.Legal ∧ Params.default.Spsc ∧
    (sample ((State.powerOn Params.default slots16 99 99 true).withSchedule [rst 3 true, rst 0 true])).rst = true ∧
    (∃ es t, trace 2 ((State.powerOn Params.default slots16 99 99 true).withSchedule [rst 3 true, rst 0 true]) =
      some (es, t) ∧ ∀ e ∈ es, e.input.rst = true) ∧
    (State.powerOn Params.default slots16 99 99 true).initialized = false ∧
    (sample ((State.powerOn Params.default slots16 99 99 true).withSchedule [run 3 true])).rst = false ∧
    Ready (at16 7 0 false []) :=
  ⟨by decide, by decide, rfl, ⟨_, _, rfl, by decide⟩, rfl, rfl, ready_empty⟩

/-- IllegalParametersAreRefused, SecondAgentOnAPortIsRefused, IndicesOutOfRangeAreRefused: each bound, just outside and
just inside. -/
theorem witness_refusals : (blk 0 16 0 0 false [] []).params.cap = 0 ∧ (blk 1 8 0 0 false [0] []).params.w < 9 ∧
    16 < (blk 1 17 0 0 false [0] []).params.w ∧
    (1 ≤ (blk 1 9 0 0 false [0] []).params.cap ∧ 9 ≤ (blk 1 9 0 0 false [0] []).params.w ∧
      (blk 1 9 0 0 false [0] []).params.w ≤ 16) ∧
    (({ Params.default with producers := 2 } : Params).Legal ∧ ({ Params.default with producers := 2 } : Params).producers ≠ 1) ∧
    (({ Params.default with consumers := 0 } : Params).Legal ∧ ({ Params.default with consumers := 0 } : Params).consumers ≠ 1) ∧
    ((at16 16 0 false [run 0 false]).params.cap ≤ (at16 16 0 false [run 0 false]).head ∧
      (sample (at16 16 0 false [run 0 false])).rst = false) ∧
    (at16 0 17 true []).params.cap < (at16 0 17 true []).count := by decide

/-- The invariant, on an empty queue and on one with a unit and a reset cycle to come; for a block of CAP = 1 and W = 9
with a slot at the largest unit. -/
theorem witness_invariant : BlockInv (at16 7 0 false []) ∧ BlockInv (at16 0 1 true [rst 0 true]) ∧
    ({ cap := 1, w := 9, producers := 1, consumers := 1, role := .echo } : Params).Legal ∧
    Shaped (State.afterReset { cap := 1, w := 9, producers := 1, consumers := 1, role := .echo } [0x1FF]) :=
  ⟨inv_empty, inv_one, by decide, Shaped.of_check rfl⟩

/-- IndexArithmeticNeverOverflows: a step with RST = 0 from a state that meets the invariant. -/
theorem witness_IndexArithmeticNeverOverflows : BlockInv (at16 15 16 true [run 1 false]) ∧
    (sample (at16 15 16 true [run 1 false])).rst = false ∧ ∃ t, step (at16 15 16 true [run 1 false]) = .next t :=
  ⟨BlockInv.of_check (Ready.of_check (by decide)) (Shaped.of_check rfl) (by decide), rfl, _, rfl⟩

/-- The statements about runs from a reset edge (R33, R91, R41, R151): a reset edge that discards units, then an
enqueue, a cycle with both, and a dequeue, no further reset. -/
theorem witness_runs_from_reset :
    Shaped (at16 9 4 true [rst 1 true, run 0x00106 true, run 0x00157 true, run 1 true]) ∧
    (sample (at16 9 4 true [rst 1 true, run 0x00106 true, run 0x00157 true, run 1 true])).rst = true ∧
    ∃ s, step (at16 9 4 true [rst 1 true, run 0x00106 true, run 0x00157 true, run 1 true]) = .next s ∧
      ∃ es t, trace 3 s = some (es, t) ∧ NoReset es ∧ (delivered es)[1]? = some 0x0055 :=
  ⟨Shaped.of_check rfl, rfl, _, rfl, _, _, rfl, by decide, by decide⟩

/-- OutputsDependOnlyOnTheQueueAndTxie: two states of one queue [5], at different heads, with different stale slots. -/
theorem witness_OutputsDependOnlyOnTheQueueAndTxie :
    Ready (blk 2 9 0 1 true [5, 7] []) ∧ Ready (blk 2 9 1 1 true [9, 5] []) ∧
    Shaped (blk 2 9 0 1 true [5, 7] []) ∧ Shaped (blk 2 9 1 1 true [9, 5] []) ∧
    queue (blk 2 9 1 1 true [9, 5] []) = queue (blk 2 9 0 1 true [5, 7] []) :=
  ⟨Ready.of_check (by decide), Ready.of_check (by decide), Shaped.of_check rfl, Shaped.of_check rfl,
    by decide⟩

/-- EnqueueToDequeueLatency, third clause: a step after an accepted enqueue. -/
theorem witness_EnqueueToDequeueLatency : ∃ t u, exec (.enq 5) (at16 15 15 true [run 0 true, run 0 true]) = .next t ∧
    step t = .next u := ⟨_, _, rfl, rfl⟩

/-- TxIrqLagsByOneCycle: one unit left; a reset cycle with a unit queued; a step after each. -/
theorem witness_TxIrqLagsByOneCycle : BlockInv (at16 0 1 true [rst 0 true]) ∧ (at16 0 1 true [rst 0 true]).count = 1 ∧
    (sample (at16 0 1 true [rst 0 true])).rst = true ∧
    ∃ t u, exec .deq (at16 0 1 true [run 1 true, run 0 true]) = .next t ∧ step t = .next u :=
  ⟨inv_one, rfl, rfl, _, _, rfl, rfl⟩

/-- EachSidesViewIsStable: from a queue with one unit, two cycles with no request. -/
theorem witness_EachSidesViewIsStable : BlockInv (at16 0 1 true [run 0 true, run 0 true]) ∧
    emptyFlag (at16 0 1 true [run 0 true, run 0 true]) = false ∧
    txIrqFlag (at16 0 1 true [run 0 true, run 0 true]) true = true ∧
    (at16 0 1 true [run 0 true, run 0 true]).count ≠ (at16 0 1 true [run 0 true, run 0 true]).params.cap ∧
    ∃ es t, trace 2 (at16 0 1 true [run 0 true, run 0 true]) = some (es, t) ∧
      ∀ e ∈ es, e.input.rst = false ∧ e.outputs.deqOk = false ∧ e.outputs.enqOk = false :=
  ⟨BlockInv.of_check (Ready.of_check (by decide)) (Shaped.of_check rfl) (by decide), rfl, rfl, by decide,
    _, _, rfl, by decide⟩

/-- NoInterruptBeforeTheFirstAcceptedEnqueue: a reset edge, a dequeue that finds nothing, then the first enqueue. -/
theorem witness_NoInterruptBeforeTheFirstAcceptedEnqueue :
    (sample (at16 9 4 true [rst 0 true, run 1 true, run 0x00106 true])).rst = true ∧
    ∃ s, step (at16 9 4 true [rst 0 true, run 1 true, run 0x00106 true]) = .next s ∧
      ∃ es t u, trace 1 s = some (es, t) ∧ (∀ e ∈ es, e.outputs.enqOk = false) ∧ step t = .next u ∧
        u.outputs.enqOk = true := ⟨rfl, _, rfl, _, _, _, rfl, by decide, rfl, by decide⟩

/-- InstancesShareNoState: a cycle of a bridge. -/
theorem witness_InstancesShareNoState : ∃ b', Bridge.step
    { asyncToSync := at16 0 1 true [run 1 true], syncToAsync := at16 7 0 false [run 0x00106 true] } = .next b' :=
  ⟨_, rfl⟩

/-- InstancesShareNoState: two instances that await the draws of their own producers and consumers. -/
theorem witness_instances_await_own_draws :
    Bridge.reset.asyncToSync.schedule = [] ∧ Bridge.reset.syncToAsync.schedule = [] ∧
    Bridge.reset.asyncToSync.params.role ≠ Bridge.reset.syncToAsync.params.role := ⟨rfl, rfl, by decide⟩

/-- EnablesFollowTheDrainingPeripheral: a bridge whose queues differ, one of them empty, and a cycle of it. -/
theorem witness_EnablesFollowTheDrainingPeripheral :
    BlockInv (at16 0 1 true [run 0 true]) ∧ BlockInv (at16 7 0 false [run 0 true]) ∧
    (∃ b', Bridge.step { asyncToSync := at16 0 1 true [run 0 true], syncToAsync := at16 7 0 false [run 0 true] } =
      .next b' ∧ b'.asyncToSync.outputs.txIrq = true ∧ b'.syncToAsync.outputs.txIrq = false) ∧
    ∃ t, step (at16 0 1 true [run 0 true]) = .next t :=
  ⟨BlockInv.of_check (Ready.of_check (by decide)) (Shaped.of_check rfl) (by decide),
    BlockInv.of_check (Ready.of_check (by decide)) (Shaped.of_check rfl) (by decide), ⟨_, rfl, rfl, rfl⟩, _, rfl⟩

/-- ProgramIsTheCyclesOfItsLines: a program with an empty column, one with a refused line, and a text. -/
theorem witness_ProgramIsTheCyclesOfItsLines :
    (∃ xs, assembleProgram 16 ([Stmt.reset, .enq 0x41].map fun st => (st, none)) = .ok xs ∧ xs.length = 2) ∧
    (∃ xs, assemble 16 (Option.getD (some true) false) (.enq 0x41) = .ok xs) ∧
    assemble 16 (Option.getD none false) (.enq 0x10000) = .error .immediateTooWide ∧
    parseLine ['D', 'E', 'Q'] = .ok .deq ∧ parseLine ['d', 'e', 'q'] = .error .notAStatement ∧
    (∃ xs, assembleText 16 [(['D', 'E', 'Q'], none)] = .ok xs) ∧
    assembleText 16 [(['d', 'e', 'q'], none)] = .error .notAStatement ∧
    parseLine ['E', 'N', 'Q', ' ', '6', '5', '5', '3', '6'] = .ok (.enq 0x10000) :=
  ⟨⟨_, rfl, rfl⟩, ⟨_, rfl⟩, rfl, by decide, by decide, ⟨_, rfl⟩, by decide, by decide⟩

/-- LabelsAndCommentsAreIgnored: digits of either base. -/
theorem witness_digits : ['2', '0'] = Nat.toDigits 10 20 ∧ ['0', 'x', '1', 'f', 'f'] = '0' :: 'x' :: Nat.toDigits 16 0x1FF := by
  decide

/-- AssemblerRefusesWideImmediates, PseudoInstructionsExpand, LabelsAndCommentsAreIgnored: each bound. -/
theorem witness_assembler : Params.default.Legal ∧ 2 ^ Params.default.w ≤ 0x10000 ∧ 0xFFFF < 2 ^ Params.default.w ∧
    0xFFFF + 1 ≤ 2 ^ Params.default.w ∧ (0 < 2 ∧ 2 ^ Params.default.w < 0xFFFF + 2) ∧
    (∀ c ∈ ['c', '1'], c ≠ ':' ∧ c ≠ ';') ∧ ∀ c ∈ ['D', 'E', 'Q'], c ≠ ':' ∧ c ≠ ';' :=
  ⟨by decide, by decide, by decide, by decide, by decide, by simp, by simp⟩

end Sys2Proof.Tests
end

/-! Proofs about the scope (spec/00_scope.md): the parameters a model refuses (R9), and the register widths (R8). -/

section
namespace Sys2Proof.Machine

/-! The refusals, carried from the build to a cycle, an instruction and a step. -/

theorem buildRefusal_of_not_legal {p : Params} (h : ¬ p.Legal) : buildRefusal p = some .badParameters := if_pos h

theorem buildRefusal_of_not_spsc {p : Params} (hl : p.Legal) (hc : ¬ p.Spsc) :
    buildRefusal p = some .brokenSpscContract := by
  rw [buildRefusal, if_neg (not_not.2 hl), if_pos hc]

theorem buildRefusal_eq_badParameters {p : Params} : buildRefusal p = some .badParameters ↔ ¬ p.Legal := by
  refine ⟨fun h hl => ?_, buildRefusal_of_not_legal⟩
  by_cases hc : p.Spsc
  · simp [buildRefusal_eq_none.2 ⟨hl, hc⟩] at h
  · simp [buildRefusal_of_not_spsc hl hc] at h

/-- The build is judged before the state. -/
theorem cycleRefusal_of_buildRefusal {s : State} {e : Refusal} (h : buildRefusal s.params = some e) :
    cycleRefusal s = some e := by
  simp [cycleRefusal, h]

theorem cycleRefusal_eq_badParameters {s : State} : cycleRefusal s = some .badParameters ↔ ¬ s.params.Legal := by
  rw [← buildRefusal_eq_badParameters]
  refine ⟨fun h => ?_, cycleRefusal_of_buildRefusal⟩
  cases hb : buildRefusal s.params with
  | some e => rw [← h, cycleRefusal_of_buildRefusal hb]
  | none =>
    -- past the build, only the two reasons of the state are left
    simp only [cycleRefusal, hb] at h
    split_ifs at h <;> simp at h

theorem resetCycle_eq_refused {s : State} {e : Refusal} :
    resetCycle s = .refused e ↔ buildRefusal s.params = some e := by
  unfold resetCycle
  cases buildRefusal s.params <;> simp

theorem runCycle_eq_refused {s : State} {q : Bool} {r : CoreResult} {e : Refusal} :
    runCycle s q r = .refused e ↔ cycleRefusal s = some e := by
  unfold runCycle
  cases cycleRefusal s <;> simp

/-- No instruction has a reason of its own to be refused. -/
theorem exec_eq_refused {i : Instr} {s : State} {e : Refusal} :
    exec i s = .refused e ↔ cycleRefusal s = some e := by
  rw [exec_eq_runCycle, runCycle_eq_refused]

theorem exec_eq_badParameters {i : Instr} {s : State} :
    exec i s = .refused .badParameters ↔ ¬ s.params.Legal := by
  rw [exec_eq_refused, cycleRefusal_eq_badParameters]

/-- R9 of a step: reset cycles are refused for the parameters too. -/
theorem step_eq_badParameters {s : State} : step s = .refused .badParameters ↔ ¬ s.params.Legal := by
  cases hr : (sample s).rst with
  | true => rw [step_of_rst hr, resetCycle_eq_refused, buildRefusal_eq_badParameters]
  | false => rw [step_of_not_rst hr, exec_eq_badParameters]

/-- Settles O26: a step and an instruction are refused as badParameters exactly when the parameters are not legal. -/
theorem illegalParametersAreRefused : Obligations.IllegalParametersAreRefused := by
  unfold Obligations.IllegalParametersAreRefused
  constructor
  · intro s hbad
    have hl : ¬ s.params.Legal := by
      rintro ⟨hcap, hlo, hhi⟩
      omega
    exact ⟨step_eq_badParameters.2 hl, fun i => exec_eq_badParameters.2 hl⟩
  · intro s hcap hlo hhi hstep
    exact step_eq_badParameters.1 hstep ⟨hcap, hlo, hhi⟩

end Sys2Proof.Machine

namespace Sys2Proof

/-- What makes `ceilLog2` the ceiling of the logarithm (R8). -/
theorem ceilLog2_le_iff {n k : Nat} : ceilLog2 n ≤ k ↔ n ≤ 2 ^ k := by
  have hpow : 1 ≤ 2 ^ k := Nat.one_le_two_pow
  unfold ceilLog2
  split_ifs with hn
  · exact iff_of_true (Nat.zero_le k) (hn.trans hpow)
  · have hlog : (n - 1).log2 < k ↔ n - 1 < 2 ^ k := Nat.log2_lt (by omega)
    rw [Nat.succ_le_iff, hlog]
    omega

theorem le_two_pow_ceilLog2 (n : Nat) : n ≤ 2 ^ ceilLog2 n := ceilLog2_le_iff.1 le_rfl

/-- Settles O34: `ceilLog2 n` is the least exponent whose power of two reaches `n`; the widths are R8's by definition,
and those of the default block are computed. -/
theorem registerWidths : Obligations.RegisterWidths := by
  unfold Obligations.RegisterWidths
  exact ⟨fun n => ⟨le_two_pow_ceilLog2 n, fun k => ceilLog2_le_iff.2⟩, fun p => ⟨rfl, rfl, rfl⟩,
    by decide, by decide, by decide⟩

end Sys2Proof
end

/-! Proofs about the state (spec/10_state.md): what a cycle does to each field, the invariant of R33 and R111, and
runs. -/

section
namespace Sys2Proof.Machine

/-! What the core does for an instruction, in every state, in terms of what it accepts and whether it delivers. -/

/-- The unit that an instruction asks to enqueue (R83, R85). -/
def enqUnit : Instr → Option Word
  | .nop => none
  | .deq => none
  | .enq v => some v
  | .enqdeq v => some v
  | .isEmpty => none

/-- The unit that the core accepts in a cycle: the one asked for, unless the queue is full (R83, R85). -/
def acceptedUnit (s : State) (i : Instr) : Option Word := if s.count < s.params.cap then enqUnit i else none

/-- The core delivers a unit in a cycle: one is asked for, and the queue is not empty (R84, R85). -/
def delivers (s : State) (i : Instr) : Bool := deqReqOf i && decide (0 < s.count)

theorem acceptedUnit_eq_some {s : State} {i : Instr} {v : Word} :
    acceptedUnit s i = some v ↔ s.count < s.params.cap ∧ enqUnit i = some v := by simp [acceptedUnit]

theorem acceptedUnit_of_full {s : State} (h : s.count = s.params.cap) (i : Instr) : acceptedUnit s i = none :=
  if_neg (by omega)

theorem delivers_eq_true {s : State} {i : Instr} : delivers s i = true ↔ deqReqOf i = true ∧ 0 < s.count := by
  simp [delivers]

/-- R82 to R85 in one equation: an accepted unit is written at the tail, a delivered one is read at `head`. -/
theorem coreOf_eq (s : State) (i : Instr) :
    coreOf s i =
      { slots := (acceptedUnit s i).elim s.slots (slotWrite s (tail s))
        head := if delivers s i then headNext s else s.head
        count := s.count + (acceptedUnit s i).isSome.toNat - (delivers s i).toNat
        enqOk := (acceptedUnit s i).isSome
        deqOk := delivers s i
        deqData := if delivers s i then slotRead s s.head else 0 } := by
  cases i with
  | nop => simp [coreOf, coreIdle, acceptedUnit, enqUnit, delivers, deqReqOf]
  | isEmpty => simp [coreOf, coreIdle, acceptedUnit, enqUnit, delivers, deqReqOf]
  | deq =>
    by_cases h0 : 0 < s.count <;>
      simp [coreOf, coreDequeue, coreIdle, acceptedUnit, enqUnit, delivers, deqReqOf, h0]
  | enq v =>
    by_cases hc : s.count < s.params.cap <;>
      simp [coreOf, coreEnqueue, coreIdle, acceptedUnit, enqUnit, delivers, deqReqOf, hc]
  | enqdeq v =>
    by_cases hc : s.count < s.params.cap <;> by_cases h0 : 0 < s.count <;>
      simp [coreOf, coreBoth, coreEnqueue, coreDequeue, coreIdle, acceptedUnit, enqUnit, delivers, deqReqOf, b2n,
        hc, h0]

@[simp] theorem coreOf_slots (s : State) (i : Instr) :
    (coreOf s i).slots = (acceptedUnit s i).elim s.slots (slotWrite s (tail s)) := by rw [coreOf_eq]

@[simp] theorem coreOf_head (s : State) (i : Instr) :
    (coreOf s i).head = if delivers s i then headNext s else s.head := by rw [coreOf_eq]

@[simp] theorem coreOf_count (s : State) (i : Instr) :
    (coreOf s i).count = s.count + (acceptedUnit s i).isSome.toNat - (delivers s i).toNat := by rw [coreOf_eq]

@[simp] theorem coreOf_enqOk (s : State) (i : Instr) : (coreOf s i).enqOk = (acceptedUnit s i).isSome := by
  rw [coreOf_eq]

@[simp] theorem coreOf_deqOk (s : State) (i : Instr) : (coreOf s i).deqOk = delivers s i := by rw [coreOf_eq]

@[simp] theorem coreOf_deqData (s : State) (i : Instr) :
    (coreOf s i).deqData = if delivers s i then slotRead s s.head else 0 := by rw [coreOf_eq]

theorem delivers_toNat_le (s : State) (i : Instr) : (delivers s i).toNat ≤ s.count := by
  cases hd : delivers s i with
  | false => exact Nat.zero_le _
  | true => exact (delivers_eq_true.1 hd).2

theorem coreOf_count_le {s : State} (h : s.count ≤ s.params.cap) (i : Instr) :
    (coreOf s i).count ≤ s.params.cap := by
  rw [coreOf_count]
  cases ha : acceptedUnit s i with
  | none => exact (Nat.sub_le _ _).trans h
  | some v => exact (Nat.sub_le _ _).trans (acceptedUnit_eq_some.1 ha).1

/-- The unit that a command word asks to enqueue is its unit field (R63, R64). -/
theorem enqUnit_decode {w : Nat} {c : Command} {v : Word} (h : enqUnit (decode w c) = some v) :
    v = unitField w c := by
  unfold decode at h
  split at h
  · cases h
  · cases h
  · exact (Option.some.inj h).symm
  · exact (Option.some.inj h).symm

/-! The fields after the edge that ends a cycle with RST = 0. -/

theorem clockEdge_keeps_ready {s : State} (h : Ready s) (q : Bool) (i : Instr) :
    Ready (clockEdge s q (coreOf s i)) where
  legal := h.legal
  spsc := h.spsc
  initialized := h.initialized
  head_lt := by
    rw [clockEdge_head, coreOf_head, clockEdge_params]
    split
    · exact headNext_lt h.legal.1
    · exact h.head_lt
  count_le := coreOf_count_le h.count_le i

theorem clockEdge_keeps_shape {s : State} (h : Shaped s) (q : Bool) {i : Instr}
    (hi : ∀ v, enqUnit i = some v → Word.Fits s.params.w v) : Shaped (clockEdge s q (coreOf s i)) := by
  cases ha : acceptedUnit s i with
  | none => exact ⟨by simpa [ha] using h.length, by simpa [ha] using h.fits⟩
  | some v =>
    obtain ⟨hl, hf⟩ := slotWrite_keeps_shape h (tail s) (hi v (acceptedUnit_eq_some.1 ha).2)
    exact ⟨by simpa [ha] using hl, by simpa [ha] using hf⟩

/-- R110 keeps TXIE = NOT EMPTY: `txie` is written whenever `count` can change (R111). -/
theorem clockEdge_txie_eq {s : State} (h : s.txie = decide (s.count ≠ 0)) (i : Instr) :
    (clockEdge s (deqReqOf i) (coreOf s i)).txie = decide ((coreOf s i).count ≠ 0) := by
  rw [clockEdge_txie, txieNext]
  split
  · rfl
  · rename_i hno
    obtain ⟨ha, hq⟩ : acceptedUnit s i = none ∧ deqReqOf i = false := by simpa using hno
    have hc : (coreOf s i).count = s.count := by simp [ha, delivers, hq]
    rw [hc, h]

/-! The edge that ends a reset cycle. -/

/-- The reset values of R34 meet the invariant. -/
theorem blockInv_of_reset_values {s : State} (hl : s.params.Legal) (hc : s.params.Spsc) (hs : Shaped s)
    (hi : s.initialized = true) (hh : s.head = 0) (hn : s.count = 0) (ht : s.txie = false) : BlockInv s where
  ready := ⟨hl, hc, hi, hh ▸ hl.1, hn ▸ Nat.zero_le _⟩
  shaped := hs
  txie_eq := by simp [hn, ht]

theorem blockInv_resetEdge {s : State} (hl : s.params.Legal) (hc : s.params.Spsc) (hs : Shaped s) :
    BlockInv (resetEdge s) :=
  blockInv_of_reset_values hl hc ⟨hs.length, hs.fits⟩ rfl rfl rfl rfl

/-! What a step does. -/

theorem step_of_ready_rst {s : State} (h : Ready s) (hr : (sample s).rst = true) : step s = .next (resetEdge s) := by
  rw [step_of_rst hr]
  exact resetCycle_eq_next.2 ⟨⟨h.legal, h.spsc⟩, rfl⟩

theorem exists_step_of_ready {s : State} (h : Ready s) : ∃ t, step s = .next t := by
  cases hr : (sample s).rst with
  | true => exact ⟨_, step_of_ready_rst h hr⟩
  | false => exact ⟨_, step_of_ready h hr⟩

theorem step_params {s t : State} (h : step s = .next t) : t.params = s.params := by
  obtain ⟨-, -, -, rfl⟩ | ⟨-, -, rfl⟩ := step_cases h <;> rfl

theorem step_initialized {s t : State} (h : step s = .next t) : t.initialized = true := by
  obtain ⟨-, -, -, rfl⟩ | ⟨-, hs, rfl⟩ := step_cases h
  · rfl
  · exact hs.initialized

theorem step_ready {s t : State} (h : step s = .next t) : Ready t := by
  obtain ⟨-, hl, hc, rfl⟩ | ⟨-, hs, rfl⟩ := step_cases h
  · exact ⟨hl, hc, rfl, hl.1, Nat.zero_le _⟩
  · exact clockEdge_keeps_ready hs _ _

theorem step_keeps_shape {s t : State} (hs : Shaped s) (h : step s = .next t) : Shaped t := by
  obtain ⟨-, -, -, rfl⟩ | ⟨-, -, rfl⟩ := step_cases h
  · exact ⟨hs.length, hs.fits⟩
  · exact clockEdge_keeps_shape hs _ fun v hv => enqUnit_decode hv ▸ unitField_fits _

theorem step_keeps_inv {s t : State} (hs : BlockInv s) (h : step s = .next t) : BlockInv t := by
  refine ⟨step_ready h, step_keeps_shape hs.shaped h, ?_⟩
  obtain ⟨-, -, -, rfl⟩ | ⟨-, -, rfl⟩ := step_cases h
  · rfl
  · exact clockEdge_txie_eq hs.txie_eq _

/-- Settles O30: a ready block's cycle completes, and each field's own lemma gives its part of the invariant. -/
theorem everyCycleKeepsTheInvariant : Obligations.EveryCycleKeepsTheInvariant := by
  unfold Obligations.EveryCycleKeepsTheInvariant
  intro s hs
  obtain ⟨t, ht⟩ := exists_step_of_ready hs.ready
  exact ⟨t, ht, step_keeps_inv hs ht, step_params ht⟩

/-! One slot over a cycle. -/

theorem slotRead_clockEdge_of_dropped {s : State} {i : Instr} (ha : acceptedUnit s i = none) (q : Bool) (a : Nat) :
    slotRead (clockEdge s q (coreOf s i)) a = slotRead s a := by simp [slotRead, ha]

theorem slotRead_clockEdge_of_ne {s : State} {a : Nat} (h : a ≠ tail s) (q : Bool) (i : Instr) :
    slotRead (clockEdge s q (coreOf s i)) a = slotRead s a := by
  cases ha : acceptedUnit s i with
  | none => exact slotRead_clockEdge_of_dropped ha q a
  | some v =>
    rw [slotRead, clockEdge_slots, coreOf_slots, ha]
    exact getD_slotWrite_of_ne h v

theorem slotRead_clockEdge_tail {s : State} {i : Instr} {v : Word} (ht : tail s < s.slots.length)
    (ha : acceptedUnit s i = some v) (q : Bool) : slotRead (clockEdge s q (coreOf s i)) (tail s) = v := by
  rw [slotRead, clockEdge_slots, coreOf_slots, ha]
  exact getD_slotWrite_self ht v

/-- Settles O16: without an accepted unit no slot changes, with one only the slot at the tail does. -/
theorem onlyAnAcceptedEnqueueWritesASlot : Obligations.OnlyAnAcceptedEnqueueWritesASlot := by
  unfold Obligations.OnlyAnAcceptedEnqueueWritesASlot
  intro s t hs h
  obtain ⟨-, -, -, rfl⟩ | ⟨-, hr, rfl⟩ := step_cases h
  · exact ⟨fun a hne => absurd rfl hne, fun hok => by simp at hok⟩
  · set i := decode s.params.w (sample s).cmd
    refine ⟨fun a hne => ⟨?_, ?_⟩, fun hok => ?_⟩
    · rw [clockEdge_outputs, outputsOf_enqOk, coreOf_enqOk, Option.isSome_iff_ne_none]
      exact fun hdrop => hne (slotRead_clockEdge_of_dropped hdrop _ a)
    · exact by_contra fun ha => hne (slotRead_clockEdge_of_ne ha _ i)
    · obtain ⟨v, hv⟩ : ∃ v, acceptedUnit s i = some v := Option.isSome_iff_exists.1 (by simpa using hok)
      rw [slotRead_clockEdge_tail (hs.length ▸ tail_lt hr.legal.1) hv]
      exact enqUnit_decode (acceptedUnit_eq_some.1 hv).2

/-- Settles O17: after a reset cycle both are 0; else the core's result gives them by its two outcomes. -/
theorem headAndCountFollowTheOutcomes : Obligations.HeadAndCountFollowTheOutcomes := by
  unfold Obligations.HeadAndCountFollowTheOutcomes
  intro s t h
  obtain ⟨hr, -, -, rfl⟩ | ⟨hr, -, rfl⟩ := step_cases h
  · exact ⟨fun _ => ⟨rfl, rfl⟩, fun hr' => by simp [hr] at hr'⟩
  · set i := decode s.params.w (sample s).cmd
    refine ⟨fun hr' => by simp [hr] at hr', fun _ => ⟨by simp [headNext], ?_⟩⟩
    have hle := delivers_toNat_le s i
    simp only [clockEdge_outputs, clockEdge_count, outputsOf_deqOk, outputsOf_enqOk, coreOf_count, coreOf_deqOk,
      coreOf_enqOk]
    omega

/-! Runs: a property that every step keeps, and that every step shows on the ports, holds of the whole run. -/

theorem trace_induction {P : State → Prop} {Q : Event → Prop}
    (hstep : ∀ s t, P s → step s = .next t → P t ∧ Q ⟨sample s, t.outputs⟩) {k : Nat}
    {s u : State} {es : List Event} (hs : P s) (h : trace k s = some (es, u)) : P u ∧ ∀ e ∈ es, Q e := by
  induction k generalizing s es with
  | zero =>
    obtain ⟨rfl, rfl⟩ : [] = es ∧ s = u := by simpa [trace_zero] using h
    exact ⟨hs, by simp⟩
  | succ k ih =>
    obtain ⟨t, fs, ht, hfs, rfl⟩ := trace_succ_eq_some.1 h
    obtain ⟨hPt, hQ⟩ := hstep s t hs ht
    obtain ⟨hPu, hQs⟩ := ih hPt hfs
    exact ⟨hPu, List.forall_mem_cons.2 ⟨hQ, hQs⟩⟩

theorem trace_keeps {P : State → Prop} (hstep : ∀ s t, P s → step s = .next t → P t) {k : Nat} {s t : State}
    {es : List Event} (hs : P s) (h : trace k s = some (es, t)) : P t :=
  (trace_induction (Q := fun _ => True) (fun s t hP ht => ⟨hstep s t hP ht, trivial⟩) hs h).1

/-- Settles O19: no step writes the parameters, and every step leaves `initialized` set. -/
theorem buildParametersAreFixed : Obligations.BuildParametersAreFixed := by
  unfold Obligations.BuildParametersAreFixed
  intro k s es t h
  exact ⟨trace_keeps (P := fun u => u.params = s.params) (fun _ _ hp hu => (step_params hu).trans hp) rfl h,
    fun hi => trace_keeps (P := fun u => u.initialized = true) (fun _ _ _ hu => step_initialized hu) hi h⟩

/-! The outputs that read the state at the start of the cycle. -/

theorem step_outputs_empty {s t : State} (h : step s = .next t) : t.outputs.empty = emptyFlag s := by
  obtain ⟨-, -, -, rfl⟩ | ⟨-, -, rfl⟩ := step_cases h <;> rfl

theorem step_outputs_txie {s t : State} (h : step s = .next t) : t.outputs.txie = s.txie := by
  obtain ⟨-, -, -, rfl⟩ | ⟨-, -, rfl⟩ := step_cases h <;> rfl

/-- TXIE = NOT EMPTY in a cycle whose state meets the invariant (R111). -/
theorem step_outputs_txie_eq_not_empty {s t : State} (hs : BlockInv s) (h : step s = .next t) :
    t.outputs.txie = !t.outputs.empty := by
  rw [step_outputs_txie h, step_outputs_empty h, hs.txie_eq, emptyFlag, beq_eq_decide, decide_not]

/-- A reset cycle of a shaped block ends in a state that meets the invariant. -/
theorem blockInv_of_step_rst {s t : State} (hs : Shaped s) (hr : (sample s).rst = true) (h : step s = .next t) :
    BlockInv t := by
  obtain ⟨-, hl, hc, rfl⟩ | ⟨hr', -, -⟩ := step_cases h
  · exact blockInv_resetEdge hl hc hs
  · simp [hr] at hr'

/-- Settles O31: the reset edge establishes the invariant, every step of the run keeps it, and it gives TXIE. -/
theorem txieIsNotEmptyInEveryReachableCycle : Obligations.TxieIsNotEmptyInEveryReachableCycle := by
  unfold Obligations.TxieIsNotEmptyInEveryReachableCycle
  intro s0 s k es t hs0 hr hs h
  obtain ⟨hinv, hes⟩ := trace_induction (P := BlockInv) (Q := fun e => e.outputs.txie = !e.outputs.empty)
    (fun _ _ hu hv => ⟨step_keeps_inv hu hv, step_outputs_txie_eq_not_empty hu hv⟩)
    (blockInv_of_step_rst hs0 hr hs) h
  exact ⟨hinv.ready.head_lt, hinv.ready.count_le, length_queue t, hinv.txie_eq, hes⟩

/-- Settles O29: each of these states has the reset values of R34. -/
theorem invariantHoldsAfterReset : Obligations.InvariantHoldsAfterReset := by
  unfold Obligations.InvariantHoldsAfterReset
  have hany : ∀ p slots, p.Legal → p.Spsc → Shaped (State.afterReset p slots) →
      BlockInv (State.afterReset p slots) :=
    fun p slots hl hc hs => blockInv_of_reset_values hl hc hs rfl rfl rfl rfl
  exact ⟨hany _ _ (by decide) (by decide) (Shaped.of_check rfl), rfl, queue_of_empty rfl, hany,
    fun s t => blockInv_of_step_rst⟩

/-! The recorded outputs. -/

theorem exec_withOutputs (i : Instr) (s : State) (o : Outputs) : exec i { s with outputs := o } = exec i s := by
  have hcore : coreOf { s with outputs := o } i = coreOf s i := by cases i <;> rfl
  rw [exec_eq_runCycle, exec_eq_runCycle, hcore]
  rfl

/-- Settles O18: neither the inputs of a cycle nor the two kinds of cycle read the recorded outputs. -/
theorem outputsAreNotState : Obligations.OutputsAreNotState := by
  unfold Obligations.OutputsAreNotState
  intro s o
  have hin : sample { s with outputs := o } = sample s := rfl
  cases hr : (sample s).rst with
  | true =>
    rw [step_of_rst (hin ▸ hr), step_of_rst hr]
    rfl
  | false =>
    rw [step_of_not_rst (hin ▸ hr), step_of_not_rst hr, hin]
    exact exec_withOutputs _ s o

/-! A full queue. -/

theorem tail_of_full {s : State} (hh : s.head < s.params.cap) (hf : s.count = s.params.cap) : tail s = s.head := by
  rw [tail, hf, Nat.add_mod_right, Nat.mod_eq_of_lt hh]

theorem coreOf_slots_of_full {s : State} (hf : s.count = s.params.cap) (i : Instr) :
    (coreOf s i).slots = s.slots := by simp [acceptedUnit_of_full hf]

/-- Settles O35: on a full queue no unit is accepted, so both enqueues leave the slots. -/
theorem tailOfAFullQueueIsHeadAndUnwritten : Obligations.TailOfAFullQueueIsHeadAndUnwritten := by
  unfold Obligations.TailOfAFullQueueIsHeadAndUnwritten
  exact fun s hs => ⟨rfl, fun hf => ⟨tail_of_full hs.head_lt hf, fun v =>
    ⟨_, _, exec_of_ready hs (.enq v), exec_of_ready hs (.enqdeq v), coreOf_slots_of_full hf _,
      coreOf_slots_of_full hf _⟩⟩⟩

/-! R25: two blocks that hold the same queue. -/

/-- Q(s) after a cycle: a delivered unit leaves its front, an accepted one joins its back (R88). -/
theorem queue_clockEdge {s : State} (hr : Ready s) (hs : Shaped s) (q : Bool) (i : Instr) :
    queue (clockEdge s q (coreOf s i)) =
      (queue s ++ (acceptedUnit s i).toList).drop (delivers s i).toNat := by
  let t := clockEdge s q (coreOf s i)
  cases ha : acceptedUnit s i with
  | none =>
    have hslots : t.slots = s.slots := by simp [t, ha]
    cases hd : delivers s i with
    | false => simpa using queue_congr (s := s) (t := t) rfl hslots (by simp [t, hd]) (by simp [t, ha, hd])
    | true =>
      have hq := queue_dequeue (t := t) hr (delivers_eq_true.1 hd).2 rfl hslots (by simp [t, hd]) (by simp [t, ha, hd])
      simp [hq, t]
  | some v =>
    have hslots : t.slots = slotWrite s (tail s) v := by simp [t, ha]
    have hc := (acceptedUnit_eq_some.1 ha).1
    cases hd : delivers s i with
    | false => exact queue_enqueue hr hs.length hc rfl hslots (by simp [hd]) (by simp [ha, hd])
    | true =>
      have hq := queue_both (t := t) hr hs.length (delivers_eq_true.1 hd).2 hc rfl hslots (by simp [t, hd])
        (by simp [t, ha, hd])
      simp [hq, t]

/-- The unit at `head` is the first of Q(s). -/
theorem head?_queue {s : State} (hr : Ready s) (h0 : 0 < s.count) : (queue s).head? = some (slotRead s s.head) := by
  rw [queue_dequeue (t := { s with head := headNext s, count := s.count - 1 }) hr h0 rfl rfl rfl rfl]
  rfl

/-- Two blocks with the same build, Q(s), `txie` and coming inputs: what R25 says the ports depend on. -/
structure SameView (s u : State) : Prop where
  params : u.params = s.params
  queue : queue u = queue s
  txie : u.txie = s.txie
  schedule : u.schedule = s.schedule
  edges : u.edges = s.edges

namespace SameView

variable {s u : State} (h : SameView s u)
include h

theorem sample_eq : sample u = sample s := sample_congr h.params h.schedule h.edges

theorem count_eq : u.count = s.count := by rw [← length_queue, h.queue, length_queue]

theorem acceptedUnit_eq (i : Instr) : acceptedUnit u i = acceptedUnit s i := by
  simp [acceptedUnit, h.count_eq, h.params]

theorem delivers_eq (i : Instr) : delivers u i = delivers s i := by simp [delivers, h.count_eq]

theorem outputsOf_eq (a b : Bool) (d : Word) : outputsOf u a b d = outputsOf s a b d := by
  simp [outputsOf, emptyFlag, txIrqFlag, h.count_eq, h.txie, h.sample_eq]

theorem deqData_eq (hs : Ready s) (hu : Ready u) (i : Instr) : (coreOf u i).deqData = (coreOf s i).deqData := by
  rw [coreOf_deqData, coreOf_deqData, h.delivers_eq]
  split
  · rename_i hd
    have h0 := (delivers_eq_true.1 hd).2
    apply Option.some_inj.1
    rw [← head?_queue hu (h.count_eq ▸ h0), ← head?_queue hs h0, h.queue]
  · rfl

theorem resetEdge_keeps : SameView (resetEdge s) (resetEdge u) where
  params := h.params
  queue := by rw [queue_of_empty rfl, queue_of_empty rfl]
  txie := rfl
  schedule := congrArg List.tail h.schedule
  edges := congrArg (· + 1) h.edges

theorem clockEdge_keeps (hs : Ready s) (hu : Ready u) (ss : Shaped s) (su : Shaped u) (q : Bool) (i : Instr) :
    SameView (clockEdge s q (coreOf s i)) (clockEdge u q (coreOf u i)) where
  params := h.params
  queue := by rw [queue_clockEdge hu su, queue_clockEdge hs ss, h.queue, h.acceptedUnit_eq, h.delivers_eq]
  txie := by simp [h.acceptedUnit_eq, h.delivers_eq, h.count_eq, h.txie]
  schedule := congrArg List.tail h.schedule
  edges := congrArg (· + 1) h.edges

/-- The simulation step: both blocks go on with the same view and show the same outputs. -/
theorem step_keeps (hs : Ready s) (hu : Ready u) (ss : Shaped s) (su : Shaped u) :
    ∃ t v, step s = .next t ∧ step u = .next v ∧ SameView t v ∧ v.outputs = t.outputs := by
  cases hr : (sample s).rst with
  | true =>
    exact ⟨_, _, step_of_ready_rst hs hr, step_of_ready_rst hu (h.sample_eq ▸ hr), h.resetEdge_keeps,
      h.outputsOf_eq _ _ _⟩
  | false =>
    refine ⟨_, _, step_of_ready hs hr, step_of_ready hu (h.sample_eq ▸ hr), ?_, ?_⟩
    · rw [h.sample_eq, h.params]
      exact h.clockEdge_keeps hs hu ss su _ _
    · rw [h.sample_eq, h.params, clockEdge_outputs, clockEdge_outputs, h.outputsOf_eq, coreOf_enqOk, coreOf_enqOk,
        h.acceptedUnit_eq, coreOf_deqOk, coreOf_deqOk, h.delivers_eq, h.deqData_eq hs hu]

end SameView

/-- The events of a run: those of its first cycle and then the rest. -/
theorem events_succ {s t : State} (h : step s = .next t) (k : Nat) :
    (trace (k + 1) s).map Prod.fst = ((trace k t).map Prod.fst).map (⟨sample s, t.outputs⟩ :: ·) := by
  simp only [trace, h]
  cases trace k t <;> rfl

theorem SameView.events_eq {s u : State} (h : SameView s u) (hs : Ready s) (hu : Ready u) (ss : Shaped s)
    (su : Shaped u) (k : Nat) : (trace k u).map Prod.fst = (trace k s).map Prod.fst := by
  induction k generalizing s u with
  | zero => rfl
  | succ k ih =>
    obtain ⟨t, v, ht, hv, htv, ho⟩ := h.step_keeps hs hu ss su
    rw [events_succ ht, events_succ hv, h.sample_eq, ho,
      ih htv (step_ready ht) (step_ready hv) (step_keeps_shape ss ht) (step_keeps_shape su hv)]

/-- Settles O39: having the same view is a simulation, so two such blocks show the same events for ever. -/
theorem outputsDependOnlyOnTheQueueAndTxie : Obligations.OutputsDependOnlyOnTheQueueAndTxie := by
  unfold Obligations.OutputsDependOnlyOnTheQueueAndTxie
  exact fun k s u hs hu ss su hp hq ht hx he => SameView.events_eq ⟨hp, hq, ht, hx, he⟩ hs hu ss su k

end Sys2Proof.Machine
end

/-! Proofs about the movement of units (spec/20_memory.md): the balance of Q(s) over cycles and runs (R41), ENQDEQ as
two cycles (R48), the side effects of each outcome (R44), and the instances of a bridge (R53). -/

section
namespace Sys2Proof.Machine

/-! The units of a run: those accepted and those delivered. -/

theorem accepted_eq_map (w : Nat) (es : List Event) :
    accepted w es = (es.filter fun e => e.outputs.enqOk).map fun e => unitField w e.input.cmd := by
  induction es with
  | nil => rfl
  | cons e es ih => cases he : e.outputs.enqOk <;> simp [accepted, he, ih]

theorem accepted_cons (w : Nat) (e : Event) (es : List Event) :
    accepted w (e :: es) = accepted w [e] ++ accepted w es := by
  cases he : e.outputs.enqOk <;> simp [accepted, he]

theorem delivered_cons (e : Event) (es : List Event) : delivered (e :: es) = delivered [e] ++ delivered es := by
  cases he : e.outputs.deqOk <;> simp [delivered, he]

/-- What the ports of a cycle show as accepted is the unit the core accepts (R83, R85). -/
theorem accepted_clockEdge (s : State) (q : Bool) :
    accepted s.params.w
        [⟨sample s, (clockEdge s q (coreOf s (decode s.params.w (sample s).cmd))).outputs⟩] =
      (acceptedUnit s (decode s.params.w (sample s).cmd)).toList := by
  cases ha : acceptedUnit s (decode s.params.w (sample s).cmd) with
  | none => simp [accepted, ha]
  | some v => simp [accepted, ha, enqUnit_decode (acceptedUnit_eq_some.1 ha).2]

/-- What the ports of a cycle show as delivered is the unit at `head`, if the core delivers one (R84, R85). -/
theorem delivered_clockEdge (s : State) (x : Input) (q : Bool) (i : Instr) :
    delivered [⟨x, (clockEdge s q (coreOf s i)).outputs⟩] = if delivers s i then [slotRead s s.head] else [] := by
  cases hd : delivers s i <;> simp [delivered, hd]

/-! The balance of Q(s): what it held and what joined it is what left it and what it holds then. -/

theorem queue_balance_clockEdge {s : State} (hr : Ready s) (hs : Shaped s) (q : Bool) (i : Instr) :
    queue s ++ (acceptedUnit s i).toList =
      (if delivers s i then [slotRead s s.head] else []) ++ queue (clockEdge s q (coreOf s i)) := by
  rw [queue_clockEdge hr hs]
  cases hd : delivers s i with
  | false => rfl
  | true =>
    obtain ⟨rest, hq⟩ := List.head?_eq_some_iff.1 (head?_queue hr (delivers_eq_true.1 hd).2)
    simp [hq]

theorem queue_balance_step {s t : State} (hs : Shaped s) (hrst : (sample s).rst = false) (h : step s = .next t) :
    queue s ++ accepted s.params.w [⟨sample s, t.outputs⟩] = delivered [⟨sample s, t.outputs⟩] ++ queue t := by
  obtain ⟨hrst', -, -, -⟩ | ⟨-, hr, rfl⟩ := step_cases h
  · simp [hrst] at hrst'
  · rw [accepted_clockEdge, delivered_clockEdge, queue_balance_clockEdge hr hs]

/-- Over a run without reset, Q(s) and the units accepted are the units delivered and Q at the end, in order. -/
theorem queue_balance_trace {k : Nat} {s u : State} {es : List Event} (hs : Shaped s)
    (h : trace k s = some (es, u)) (hes : NoReset es) :
    queue s ++ accepted s.params.w es = delivered es ++ queue u := by
  induction k generalizing s es with
  | zero =>
    obtain ⟨rfl, rfl⟩ : [] = es ∧ s = u := by simpa [trace_zero] using h
    exact List.append_nil _
  | succ k ih =>
    obtain ⟨t, fs, ht, hfs, rfl⟩ := trace_succ_eq_some.1 h
    obtain ⟨hrst, hfs'⟩ := List.forall_mem_cons.1 hes
    have hrest := ih (step_keeps_shape hs ht) hfs hfs'
    rw [step_params ht] at hrest
    rw [accepted_cons, delivered_cons, ← List.append_assoc, queue_balance_step hs hrst ht, List.append_assoc, hrest,
      List.append_assoc]

/-- A reset edge leaves an empty queue, in a block of a legal build. -/
theorem queue_of_step_rst {s t : State} (hr : (sample s).rst = true) (h : step s = .next t) :
    queue t = [] ∧ t.params.Legal := by
  obtain ⟨-, hl, -, rfl⟩ | ⟨hr', -, -⟩ := step_cases h
  · exact ⟨queue_of_empty rfl, hl⟩
  · simp [hr] at hr'

/-- Each bit of the unit operand is that bit of ENQ_DATA (R61, R63). -/
theorem unitField_cmd_getLsbD {w i : Nat} (hw : w ≤ 16) (hi : i < w) (x : Input) :
    (unitField w x.cmd).getLsbD i = x.enqData.getLsbD i := by
  rw [unitField_getLsbD hw, cmd_enqData, decide_eq_true hi, Bool.true_and]

/-- Settles O38: from an empty queue the units accepted begin with those delivered, so the n-th of each are the
same unit, and that is the unit field of its enqueue. -/
theorem unitsMoveBitExact : Obligations.UnitsMoveBitExact := by
  unfold Obligations.UnitsMoveBitExact
  intro s0 s k es t hs0 hr hs h hes n d hd
  obtain ⟨hq, -, -, hw⟩ := queue_of_step_rst hr hs
  have hbal := queue_balance_trace (step_keeps_shape hs0 hs) h hes
  rw [hq, List.nil_append] at hbal
  have hacc : (accepted s.params.w es)[n]? = some d := by
    rw [hbal, List.getElem?_append_left (List.getElem?_eq_some_iff.1 hd).1, hd]
  rw [accepted_eq_map, List.getElem?_map] at hacc
  obtain ⟨e, he, rfl⟩ := Option.map_eq_some_iff.1 hacc
  exact ⟨e, he, fun i hi => unitField_cmd_getLsbD hw hi e.input⟩

/-! The instructions' requests: what the core accepts and delivers for each. -/

@[simp] theorem acceptedUnit_nop (s : State) : acceptedUnit s .nop = none := ite_self _

@[simp] theorem acceptedUnit_isEmpty (s : State) : acceptedUnit s .isEmpty = none := ite_self _

@[simp] theorem acceptedUnit_deq (s : State) : acceptedUnit s .deq = none := ite_self _

theorem acceptedUnit_enq {s : State} (h : s.count < s.params.cap) (v : Word) :
    acceptedUnit s (.enq v) = some v := if_pos h

@[simp] theorem acceptedUnit_enqdeq (s : State) (v : Word) :
    acceptedUnit s (.enqdeq v) = acceptedUnit s (.enq v) := by simp only [acceptedUnit, enqUnit]

@[simp] theorem delivers_enq (s : State) (v : Word) : delivers s (.enq v) = false := rfl

theorem delivers_deq {s : State} (h : 0 < s.count) : delivers s .deq = true := decide_eq_true h

theorem delivers_of_empty {s : State} (h : s.count = 0) (i : Instr) : delivers s i = false := by simp [delivers, h]

@[simp] theorem delivers_enqdeq (s : State) (v : Word) : delivers s (.enqdeq v) = delivers s .deq := by
  simp only [delivers, deqReqOf]

/-! R48: the two requests of an ENQDEQ one after the other. -/

/-- A dequeue moves `head` and `count` against each other, so the tail stays. -/
theorem tail_clockEdge_deq (s : State) (q : Bool) : tail (clockEdge s q (coreOf s .deq)) = tail s := by
  cases hd : delivers s .deq with
  | false => simp [tail, hd]
  | true =>
    have h0 := (delivers_eq_true.1 hd).2
    have hsum : s.head + 1 + (s.count - 1) = s.head + s.count := by omega
    simp [tail, headNext, hd, hsum]

/-- An enqueue leaves the unit at `head` of a queue that holds one. -/
theorem slotRead_head_clockEdge_enq {s : State} (hr : Ready s) (h0 : 0 < s.count) (q : Bool) (v : Word) :
    slotRead (clockEdge s q (coreOf s (.enq v))) s.head = slotRead s s.head := by
  by_cases hc : s.count < s.params.cap
  · exact slotRead_clockEdge_of_ne (tail_ne_head hr.head_lt h0 hc).symm q _
  · exact slotRead_clockEdge_of_dropped (if_neg hc) q _

/-- After a dequeue the queue takes an enqueue wherever it took one before. -/
theorem acceptedUnit_enq_clockEdge_deq {s : State} (hc : s.count < s.params.cap) (q : Bool) (v : Word) :
    acceptedUnit (clockEdge s q (coreOf s .deq)) (.enq v) = some v := by
  have hle : (coreOf s .deq).count ≤ s.count := by simp
  exact acceptedUnit_enq (s := clockEdge s q _) (lt_of_le_of_lt hle hc) v

/-- After an enqueue the queue delivers wherever it delivered before. -/
theorem delivers_deq_clockEdge_enq {s : State} (h0 : 0 < s.count) (q : Bool) (v : Word) :
    delivers (clockEdge s q (coreOf s (.enq v))) .deq = true := by
  have hle : s.count ≤ (coreOf s (.enq v)).count := by simp
  exact delivers_deq (lt_of_lt_of_le h0 hle)

/-- On a queue that is not full, ENQDEQ ends where DEQ and then ENQ end. -/
theorem sameBlock_deq_enq {s a b t : State} {v : Word} (hc : s.count < s.params.cap) (ha : exec .deq s = .next a)
    (hb : exec (.enq v) a = .next b) (ht : exec (.enqdeq v) s = .next t) : SameBlock b t := by
  obtain ⟨-, rfl⟩ := exec_eq_next.1 ha
  obtain ⟨-, rfl⟩ := exec_eq_next.1 hb
  obtain ⟨-, rfl⟩ := exec_eq_next.1 ht
  have hle := delivers_toNat_le s .deq
  have hcount : s.count - (delivers s .deq).toNat + 1 = s.count + 1 - (delivers s .deq).toNat := by omega
  constructor <;>
    simp [acceptedUnit_enq hc, acceptedUnit_enq_clockEdge_deq hc, tail_clockEdge_deq, slotWrite, txieNext, hcount]

/-- On a queue that holds a unit, ENQDEQ ends where ENQ and then DEQ end. -/
theorem sameBlock_enq_deq {s a b t : State} {v : Word} (h0 : 0 < s.count) (ha : exec (.enq v) s = .next a)
    (hb : exec .deq a = .next b) (ht : exec (.enqdeq v) s = .next t) : SameBlock b t := by
  obtain ⟨-, rfl⟩ := exec_eq_next.1 ha
  obtain ⟨-, rfl⟩ := exec_eq_next.1 hb
  obtain ⟨-, rfl⟩ := exec_eq_next.1 ht
  constructor <;> simp [delivers_deq h0, delivers_deq_clockEdge_enq h0, headNext, txieNext, deqReqOf]

/-- Settles O40: both orders end in the block of the ENQDEQ, and the second cycle of each still finds its request's
outcome, the unit at `head` too, as it was before the first. -/
theorem sameCycleRequestsAreSerial : Obligations.SameCycleRequestsAreSerial := by
  unfold Obligations.SameCycleRequestsAreSerial
  intro s v hs
  have ht := exec_of_ready hs (.enqdeq v)
  refine ⟨_, ht, fun hc => ?_, fun h0 => ?_⟩
  · have ha := exec_of_ready hs .deq
    have hb := exec_of_ready (clockEdge_keeps_ready hs true .deq) (.enq v)
    refine ⟨_, _, ha, hb, sameBlock_deq_enq hc ha hb ht, ?_⟩
    simp [acceptedUnit_enq hc, acceptedUnit_enq_clockEdge_deq hc]
  · have ha := exec_of_ready hs (.enq v)
    have hb := exec_of_ready (clockEdge_keeps_ready hs false (.enq v)) .deq
    refine ⟨_, _, ha, hb, sameBlock_enq_deq h0 ha hb ht, ?_⟩
    simp [delivers_deq h0, delivers_deq_clockEdge_enq h0, slotRead_head_clockEdge_enq hs h0]

/-! R44: the side effects of each outcome. -/

/-- A cycle that accepts no unit and asks for no dequeue leaves the block. -/
theorem exists_exec_sameBlock {s : State} {i : Instr} (hs : Ready s) (ha : acceptedUnit s i = none)
    (hq : deqReqOf i = false) : ∃ t, exec i s = .next t ∧ SameBlock s t := by
  refine ⟨_, exec_of_ready hs i, ?_⟩
  constructor <;> simp [ha, hq, delivers, txieNext]

/-- Settles O41: a delivered unit leaves Q(s), a dequeue that finds nothing writes `txie` alone, and the other three
neither accept a unit nor ask for a dequeue. -/
theorem sideEffectsOfEachOutcome : Obligations.SideEffectsOfEachOutcome := by
  unfold Obligations.SideEffectsOfEachOutcome
  refine ⟨fun s hs h0 => ?_, fun s hs h0 => ?_, fun s v hs hf => ?_, fun s hs => ⟨?_, ?_⟩⟩
  · have hpos := Nat.pos_of_ne_zero h0
    have hd := delivers_deq hpos
    refine ⟨_, exec_of_ready hs .deq, ?_⟩
    rw [clockEdge_outputs, outputsOf_deqData, coreOf_deqData, if_pos hd]
    exact queue_dequeue hs hpos rfl (by simp) (by simp [hd]) (by simp [hd])
  · have hd := delivers_of_empty h0 .deq
    exact ⟨_, exec_of_ready hs .deq, by simp, by simp [hd], by simp [hd], by simp [hd, h0, deqReqOf, txieNext]⟩
  · exact exists_exec_sameBlock hs (acceptedUnit_of_full hf _) rfl
  · exact exists_exec_sameBlock hs (acceptedUnit_nop s) rfl
  · exact exists_exec_sameBlock hs (acceptedUnit_isEmpty s) rfl

/-! R53: the instances of a bridge. -/

theorem step_schedule {s t : State} (h : step s = .next t) : t.schedule = s.schedule.tail := by
  obtain ⟨-, -, -, rfl⟩ | ⟨-, -, rfl⟩ := step_cases h <;> rfl

/-- A cycle that the schedule does not list is the cycle whose inputs are the free draw of the instance: both sample
that draw and leave an empty schedule. -/
theorem step_of_schedule_nil (s : State) (h : s.schedule = []) :
    step s = step (s.withSchedule [Config.freeInput s.params.role s.edges]) := by
  obtain ⟨p, slots, head, count, txie, init, schedule, edges, outputs⟩ := s
  subst h
  rfl

/-- The whole of a bridge's cycle. -/
theorem bridgeStep_eq_next {b b' : Bridge} :
    b.step = .next b' ↔
      step (b.asyncToSync.inRole .asyncToSync) = .next b'.asyncToSync ∧
      step (b.syncToAsync.inRole .syncToAsync) = .next b'.syncToAsync := by
  obtain ⟨a', c'⟩ := b'
  unfold Bridge.step
  cases step (b.asyncToSync.inRole .asyncToSync) with
  | fault e => cases e
  | refused e => simp
  | next a =>
    cases step (b.syncToAsync.inRole .syncToAsync) with
    | fault e => cases e
    | refused e => simp
    | next c => simp

/-- One side of a bridge does what its own state says, whatever the other holds. -/
theorem next_eq_of_step_inRole {s u t v : State} {r : Role} (hsu : u = s) (hs : step (s.inRole r) = .next t)
    (hu : step (u.inRole r) = .next v) : v = t := by
  subst hsu
  exact Host.Outcome.next.inj (hu.symm.trans hs)

/-- Settles O46: a bridge's cycle is one step of each instance, and a step keeps the role and uses up the instance's
own schedule. -/
theorem instancesShareNoState : Obligations.InstancesShareNoState := by
  unfold Obligations.InstancesShareNoState
  refine ⟨fun _ _ => bridgeStep_eq_next, fun b b' h => ?_, fun b =>
    ⟨step_of_schedule_nil (b.asyncToSync.inRole .asyncToSync),
      step_of_schedule_nil (b.syncToAsync.inRole .syncToAsync)⟩,
    fun b c b' c' hb hc => ?_⟩
  · obtain ⟨ha, hs⟩ := bridgeStep_eq_next.1 h
    exact ⟨by simp [step_params ha], by simp [step_params hs], fun x xs hx => by simp [step_schedule ha, hx],
      fun x xs hx => by simp [step_schedule hs, hx]⟩
  · obtain ⟨hba, hbs⟩ := bridgeStep_eq_next.1 hb
    obtain ⟨hca, hcs⟩ := bridgeStep_eq_next.1 hc
    refine ⟨fun h => ?_, fun h => ?_⟩
    · have heq := next_eq_of_step_inRole h hba hca
      exact ⟨heq, congrArg State.txie heq⟩
    · have heq := next_eq_of_step_inRole h hbs hcs
      exact ⟨heq, congrArg State.txie heq⟩

end Sys2Proof.Machine
end

/-! Proofs about the encoding (spec/30_encoding.md): command words and ports (R61 to R68), the cycles of the assembler
(R69, R70), and the reading of its text. -/

section
namespace Sys2Proof

/-! The ports and the command word (R61). -/

/-- Presenting a command word on the ports and gathering the ports again gives the word. -/
theorem ofCommand_cmd (c : Command) (rst r : Bool) : (Input.ofCommand c rst r).cmd = c := by
  apply BitVec.eq_of_getLsbD_eq
  intro i hi
  match i with
  | 0 => exact cmd_deqReq _
  | 1 => exact cmd_enqReq _
  | i + 2 =>
    have h16 : i < 16 := by omega
    rw [cmd_enqData]
    simp [Input.ofCommand, h16, Nat.add_comm]

/-- Settles O3: each port's bits, and the word that comes back from the ports it was presented on. -/
theorem commandWordGathersThePorts : Obligations.CommandWordGathersThePorts := by
  unfold Obligations.CommandWordGathersThePorts
  exact ⟨fun x => ⟨cmd_deqReq x, cmd_enqReq x, cmd_enqData x⟩, fun c rst r => ⟨ofCommand_cmd c rst r, rfl, rfl⟩⟩

/-- Every command word is gathered from some ports (R61). -/
theorem exists_eq_commandOf (c : Command) : ∃ d e q, c = commandOf d e q :=
  ⟨_, _, _, (ofCommand_cmd c false false).symm⟩

theorem commandOf_toNat (d : Word) (e q : Bool) :
    (commandOf d e q).toNat = d.toNat * 4 + e.toNat * 2 + q.toNat := by
  have he : e.toNat < 2 ^ 1 := e.toNat_lt
  have hq : q.toNat < 2 ^ 1 := q.toNat_lt
  unfold commandOf
  erw [BitVec.toNat_append, BitVec.toNat_append]
  rw [BitVec.toNat_ofBool, BitVec.toNat_ofBool, ← Nat.shiftLeft_add_eq_or_of_lt he,
    ← Nat.shiftLeft_add_eq_or_of_lt hq, Nat.shiftLeft_eq, Nat.shiftLeft_eq]
  omega

/-! The decoder (R63, R64). -/

/-- Settles O4: each bit of the operand is the field's bit of the same place. -/
theorem unitOperandIsItsFieldUnchanged : Obligations.UnitOperandIsItsFieldUnchanged := by
  unfold Obligations.UnitOperandIsItsFieldUnchanged
  exact fun w hw c => ⟨unitField_getLsbD hw c, unitField_fits c, decode_enq, decode_enqdeq⟩

/-- A unit that fits comes back from the command word it is gathered into. -/
theorem unitField_commandOf {w : Nat} (hw : w ≤ 16) {d : Word} (hd : Word.Fits w d) (e q : Bool) :
    unitField w (commandOf d e q) = d := by
  apply BitVec.eq_of_getLsbD_eq
  intro i hi
  rw [unitField_getLsbD hw, commandOf_getLsbD, if_neg (by omega), if_neg (by omega), Nat.add_sub_cancel]
  by_cases h : i < w
  · simp [h]
  · have hz : d.getLsbD i = false :=
      Nat.testBit_lt_two_pow (lt_of_lt_of_le hd (Nat.pow_le_pow_right two_pos (not_lt.1 h)))
    simp [h, hz]

/-- The operation that gathered ports select, by the two requests (R61, R64). -/
theorem decode_commandOf {w : Nat} (hw : w ≤ 16) {d : Word} (hd : Word.Fits w d) (e q : Bool) :
    decode w (commandOf d e q) =
      if e then (if q then .enqdeq d else .enq d) else (if q then .deq else .nop) := by
  have h := decode_cmd w ⟨false, e, d, q, false⟩
  simp only [Input.cmd, unitField_commandOf hw hd] at h
  rw [h]
  cases e <;> cases q <;> rfl

/-! The encoder (R68): each word is one that the ports present. -/

/-- A unit shifted past the two request bits, with these filled in, is the word gathered from the ports. -/
theorem shiftLeft_or_commandOf_zero (v : Word) (e q : Bool) :
    (v.setWidth 18 <<< 2) ||| commandOf 0 e q = commandOf v e q := by
  apply BitVec.eq_of_getLsbD_eq
  intro i hi
  rw [BitVec.getLsbD_or, commandOf_getLsbD, commandOf_getLsbD]
  match i with
  | 0 => simp
  | 1 => simp
  | i + 2 => simp [hi]

theorem encode_nop : encode .nop = commandOf 0 false false := rfl

theorem encode_deq : encode .deq = commandOf 0 false true := rfl

theorem encode_enq (v : Word) : encode (.enq v) = commandOf v true false :=
  shiftLeft_or_commandOf_zero v true false

theorem encode_enqdeq (v : Word) : encode (.enqdeq v) = commandOf v true true :=
  shiftLeft_or_commandOf_zero v true true

/-- R68 one way: the word of a well-formed instruction decodes to the command it stands for. -/
theorem decode_encode {w : Nat} (hw : w ≤ 16) {i : Instr} (hi : i.wf w = true) :
    decode w (encode i) = i.command := by
  have h0 : Word.Fits w 0 := by simp [Word.Fits]
  cases i with
  | nop => exact (congrArg _ encode_nop).trans (decode_commandOf hw h0 false false)
  | deq => exact (congrArg _ encode_deq).trans (decode_commandOf hw h0 false true)
  | enq v => exact (congrArg _ (encode_enq v)).trans (decode_commandOf hw (of_decide_eq_true hi) true false)
  | enqdeq v => exact (congrArg _ (encode_enqdeq v)).trans (decode_commandOf hw (of_decide_eq_true hi) true true)
  | isEmpty => exact (congrArg _ encode_nop).trans (decode_commandOf hw h0 false false)

/-- R68 the other way: a word whose data bits are used or 0 is the word of the operation it selects. -/
theorem encode_decode_commandOf {w : Nat} (hw : w ≤ 16) {d : Word} (hd : Word.Fits w d) {e q : Bool}
    (h : e = true ∨ d = 0) : encode (decode w (commandOf d e q)) = commandOf d e q := by
  rw [decode_commandOf hw hd]
  cases e with
  | false =>
    obtain rfl : d = 0 := h.resolve_left Bool.false_ne_true
    cases q with
    | false => exact encode_nop
    | true => exact encode_deq
  | true =>
    cases q with
    | false => exact encode_enq d
    | true => exact encode_enqdeq d

/-- What a command word of `w + 2` bits gives: its ports, whose data fit. -/
theorem exists_fits_eq_commandOf {w : Nat} {c : Command} (hc : c.toNat < 2 ^ (w + 2)) :
    ∃ d e q, Word.Fits w d ∧ c = commandOf d e q := by
  obtain ⟨d, e, q, rfl⟩ := exists_eq_commandOf c
  rw [commandOf_toNat, pow_add] at hc
  exact ⟨d, e, q, by simp only [Word.Fits]; omega, rfl⟩

/-- The operation by the low two bits of the word's number. -/
theorem decode_of_mod_four {w : Nat} (hw : w ≤ 16) {c : Command} (hc : c.toNat < 2 ^ (w + 2)) :
    (c.toNat % 4 = 0 → decode w c = .nop) ∧ (c.toNat % 4 = 1 → decode w c = .deq) ∧
    (c.toNat % 4 = 2 → decode w c = .enq (BitVec.ofNat 16 (c.toNat / 4))) ∧
    (c.toNat % 4 = 3 → decode w c = .enqdeq (BitVec.ofNat 16 (c.toNat / 4))) := by
  obtain ⟨d, e, q, hd, rfl⟩ := exists_fits_eq_commandOf hc
  have hn := commandOf_toNat d e q
  have he := e.toNat_lt
  have hq := q.toNat_lt
  have hdiv : (commandOf d e q).toNat / 4 = d.toNat := by omega
  have hmod : (commandOf d e q).toNat % 4 = e.toNat * 2 + q.toNat := by omega
  rw [hdiv, hmod, decode_commandOf hw hd, BitVec.ofNat_toNat, BitVec.setWidth_eq]
  cases e <;> cases q <;> simp

/-- Settles O1: the words are those the ports present, and each direction has its lemma. -/
theorem encoderAndDecoderAreInverse : Obligations.EncoderAndDecoderAreInverse := by
  unfold Obligations.EncoderAndDecoderAreInverse
  refine fun w _ hw => ⟨⟨rfl, rfl, fun v _ => ⟨?_, ?_⟩⟩, fun c hc => decode_of_mod_four hw hc,
    fun i hi => ⟨decode_encode hw hi, ?_, ?_⟩, fun c hc h => ?_, by decide⟩
  · rw [encode_enq, commandOf_toNat]; rfl
  · rw [encode_enqdeq, commandOf_toNat]; rfl
  · cases i <;> simp [Instr.command]
  · rintro rfl; rfl
  · obtain ⟨d, e, q, hd, rfl⟩ := exists_fits_eq_commandOf hc
    refine encode_decode_commandOf hw hd (h.imp (fun h1 => ?_) fun h0 => ?_)
    · rwa [commandOf_getLsbD, if_neg one_ne_zero, if_pos rfl] at h1
    · rw [commandOf_toNat] at h0
      exact BitVec.eq_of_toNat_eq (by simp only [BitVec.ofNat_eq_ofNat, BitVec.toNat_zero]; omega)

/-- Settles O2: the words of the vectors, and the two numbers too wide, are evaluated. -/
theorem specVectorWordsDecode : Obligations.SpecVectorWordsDecode := by
  unfold Obligations.SpecVectorWordsDecode
  decide

end Sys2Proof

namespace Sys2Proof.Machine

/-! Idle data bits (R66). -/

/-- An instruction's cycle uses TX_READY and nothing else of the inputs it takes from the schedule. -/
theorem exec_withSchedule_congr (i : Instr) (s : State) {x x' : Input} (h : x'.txReady = x.txReady) (xs : List Input) :
    exec i (s.withSchedule (x' :: xs)) = exec i (s.withSchedule (x :: xs)) := by
  obtain ⟨rst, eq, ed, dq, tr⟩ := x
  subst h
  cases i <;> rfl

theorem decode_of_idle {w : Nat} {c c' : Command} (h1 : c.getLsbD 1 = false) (h1' : c'.getLsbD 1 = false)
    (h0 : c'.getLsbD 0 = c.getLsbD 0) : decode w c' = decode w c := by
  cases h : c.getLsbD 0 with
  | false => rw [decode_nop h1' (h0.trans h), decode_nop h1 h]
  | true => rw [decode_deq h1' (h0.trans h), decode_deq h1 h]

theorem Ready.withSchedule {s : State} (h : Ready s) (xs : List Input) : Ready (s.withSchedule xs) :=
  ⟨h.legal, h.spsc, h.initialized, h.head_lt, h.count_le⟩

/-- Settles O5: a ready block steps on all inputs, and words that differ in idle data bits select one operation. -/
theorem everyWordIsLegalAndIdleDataIsIgnored : Obligations.EveryWordIsLegalAndIdleDataIsIgnored := by
  unfold Obligations.EveryWordIsLegalAndIdleDataIsIgnored
  refine ⟨fun s hs c r xs => exists_step_of_ready (hs.withSchedule _), fun s c c' r xs h1 h1' h0 => ?_⟩
  have hd : decode s.params.w c' = decode s.params.w c := decode_of_idle h1 h1' h0
  refine ⟨hd, ?_⟩
  have hstep (a : Command) : step (s.withSchedule (Input.ofCommand a false r :: xs)) =
      exec (decode s.params.w a) (s.withSchedule (Input.ofCommand a false r :: xs)) := by
    rw [step_of_not_rst rfl, sample_cons rfl, ofCommand_cmd, withSchedule_params]
  rw [hstep c', hstep c, hd]
  exact exec_withSchedule_congr _ s rfl xs

end Sys2Proof.Machine
end

/-! The cycles of the assembler (R69, R70). -/

section
namespace Sys2Proof.Machine

/-- The cycle of an instruction presents a word that decodes to the command it stands for. -/
theorem decode_cycleOf {w : Nat} (hw : w ≤ 16) {i : Instr} (hi : i.wf w = true) (r : Bool) :
    decode w (cycleOf i r).cmd = i.command := by
  rw [cycleOf, ofCommand_cmd, decode_encode hw hi]

theorem withUnit_of_lt {w imm : Nat} (h : imm < 2 ^ w) (mk : Word → Instr) :
    withUnit w imm mk = .ok (mk (BitVec.ofNat 16 imm)) := if_pos h

theorem withUnit_of_le {w imm : Nat} (h : 2 ^ w ≤ imm) (mk : Word → Instr) :
    withUnit w imm mk = .error .immediateTooWide := if_neg (not_lt.2 h)

/-- An immediate below `2^w` is the number of its unit. -/
theorem toNat_ofNat_of_lt {w imm : Nat} (hw : w ≤ 16) (h : imm < 2 ^ w) : (BitVec.ofNat 16 imm).toNat = imm :=
  Nat.mod_eq_of_lt (lt_of_lt_of_le h (Nat.pow_le_pow_right two_pos hw))

theorem fits_ofNat_of_lt {w imm : Nat} (hw : w ≤ 16) (h : imm < 2 ^ w) : Word.Fits w (BitVec.ofNat 16 imm) :=
  (toNat_ofNat_of_lt hw h).trans_lt h

theorem assemble_enq_of_lt {w imm : Nat} (h : imm < 2 ^ w) (r : Bool) :
    assemble w r (.enq imm) = .ok [cycleOf (.enq (BitVec.ofNat 16 imm)) r] := by
  rw [assemble, withUnit_of_lt h]; rfl

theorem assemble_enqdeq_of_lt {w imm : Nat} (h : imm < 2 ^ w) (r : Bool) :
    assemble w r (.enqdeq imm) = .ok [cycleOf (.enqdeq (BitVec.ofNat 16 imm)) r] := by
  rw [assemble, withUnit_of_lt h]; rfl

/-- Settles O47: the immediate's bound decides, and the cycle's word decodes to the instruction it encodes. -/
theorem assemblerRefusesWideImmediates : Obligations.AssemblerRefusesWideImmediates := by
  unfold Obligations.AssemblerRefusesWideImmediates
  rintro p r imm ⟨-, -, hw⟩
  refine ⟨fun h => ?_, fun h => ?_⟩
  · simp only [assemble, withUnit_of_le h]
    exact ⟨rfl, rfl⟩
  · have hf := fits_ofNat_of_lt hw h
    exact ⟨_, toNat_ofNat_of_lt hw h, _, _,
      assemble_enq_of_lt h r, decode_cycleOf (i := .enq _) hw (decide_eq_true hf) r, rfl, rfl,
      assemble_enqdeq_of_lt h r, decode_cycleOf (i := .enqdeq _) hw (decide_eq_true hf) r, rfl, rfl⟩

/-- A FILL whose values are all below `2^w` is the ENQ cycles of these values, in order (R70). -/
theorem assembleFill_of_le {w : Nat} (r : Bool) {n v0 : Nat} (h : n = 0 ∨ v0 + n ≤ 2 ^ w) :
    assembleFill w r n v0 = .ok ((List.range' v0 n).map fun v => cycleOf (.enq (BitVec.ofNat 16 v)) r) := by
  induction n generalizing v0 with
  | zero => rfl
  | succ n ih =>
    rw [assembleFill, withUnit_of_lt (by omega), ih (by omega)]
    rfl

/-- A FILL with a value of `2^w` or more, its last one at the latest, is refused (R70). -/
theorem assembleFill_of_lt {w : Nat} (r : Bool) {n v0 : Nat} (hn : 0 < n) (h : 2 ^ w < v0 + n) :
    assembleFill w r n v0 = .error .immediateTooWide := by
  induction n generalizing v0 with
  | zero => exact absurd hn (lt_irrefl 0)
  | succ n ih =>
    by_cases hv : v0 < 2 ^ w
    · rw [assembleFill, withUnit_of_lt hv, ih (by omega) (by omega)]
    · rw [assembleFill, withUnit_of_le (not_lt.1 hv)]

/-- Settles O49: each expansion is a cycle or a list of cycles of instructions that the encoder gives back. -/
theorem pseudoInstructionsExpand : Obligations.PseudoInstructionsExpand := by
  unfold Obligations.PseudoInstructionsExpand
  rintro p r ⟨-, -, hw⟩
  refine ⟨⟨_, rfl, rfl, decode_cycleOf (i := .nop) hw rfl r, rfl, rfl, rfl, rfl⟩,
    ⟨_, rfl, rfl, ofCommand_cmd 0 true r, rfl⟩, fun n v0 h => ?_, fun n v0 hn h => assembleFill_of_lt r hn h,
    ⟨_, rfl, decode_cycleOf (i := .deq) hw rfl r, rfl, rfl, rfl, rfl, fun _ => rfl⟩⟩
  refine ⟨_, assembleFill_of_le r h, by simp, fun k hk => ?_⟩
  have hv : v0 + k < 2 ^ p.w := by omega
  exact ⟨cycleOf (.enq (BitVec.ofNat 16 (v0 + k))) r, by simp [hk], assemble_enq_of_lt hv r,
    decode_cycleOf (i := .enq _) hw (decide_eq_true (fits_ofNat_of_lt hw hv)) r, rfl, rfl⟩

/-! A program's lines. -/

theorem joinLines_cons_of_ok {l : Except AsmError (List Input)} {xs : List Input} (h : l = .ok xs)
    (rest : List (Except AsmError (List Input))) :
    joinLines (l :: rest) = (joinLines rest).map (xs ++ ·) := by
  rw [h, joinLines]

theorem joinLines_cons_of_error {l : Except AsmError (List Input)} {e : AsmError} (h : l = .error e)
    (rest : List (Except AsmError (List Input))) :
    joinLines (l :: rest) = .error e := by
  rw [h, joinLines]

/-- Every cycle of a program is a cycle of one of its lines. -/
theorem exists_line_of_mem_joinLines {ls : List (Except AsmError (List Input))} {xs : List Input} {x : Input}
    (h : joinLines ls = .ok xs) (hx : x ∈ xs) : ∃ ys, .ok ys ∈ ls ∧ x ∈ ys := by
  induction ls generalizing xs with
  | nil =>
    cases h
    cases hx
  | cons l ls ih =>
    cases l with
    | error e => cases h
    | ok ys =>
      rw [joinLines_cons_of_ok rfl] at h
      cases hr : joinLines ls with
      | error e => rw [hr] at h; cases h
      | ok zs =>
        rw [hr] at h
        cases h
        obtain hy | hz := List.mem_append.1 hx
        · exact ⟨ys, List.mem_cons_self, hy⟩
        · obtain ⟨us, hu, hxu⟩ := ih hr hz
          exact ⟨us, List.mem_cons_of_mem _ hu, hxu⟩

theorem assembleFill_txReady {w : Nat} {r : Bool} {n v0 : Nat} {xs : List Input}
    (h : assembleFill w r n v0 = .ok xs) {x : Input} (hx : x ∈ xs) : x.txReady = r := by
  by_cases hb : n = 0 ∨ v0 + n ≤ 2 ^ w
  · rw [assembleFill_of_le r hb] at h
    cases h
    obtain ⟨v, -, rfl⟩ := List.mem_map.1 hx
    rfl
  · rw [assembleFill_of_lt r (by omega) (by omega)] at h
    cases h

/-- The one cycle that `withUnit` gives has the TX_READY it was asked for. -/
theorem withUnit_txReady {w imm : Nat} {mk : Word → Instr} {r : Bool} {xs : List Input}
    (h : ((withUnit w imm mk).map fun i => [cycleOf i r]) = .ok xs) {x : Input} (hx : x ∈ xs) : x.txReady = r := by
  cases hu : withUnit w imm mk with
  | error e => rw [hu] at h; cases h
  | ok i =>
    rw [hu] at h
    cases h
    rw [List.mem_singleton.1 hx]
    rfl

/-- Every cycle of a statement has the TX_READY that the statement is given (R69, R70). -/
theorem assemble_txReady {w : Nat} {r : Bool} {st : Stmt} {xs : List Input} (h : assemble w r st = .ok xs)
    {x : Input} (hx : x ∈ xs) : x.txReady = r := by
  cases st with
  | enq imm => exact withUnit_txReady h hx
  | enqdeq imm => exact withUnit_txReady h hx
  | fill n v0 => exact assembleFill_txReady h hx
  | drain n =>
    cases h
    rw [(List.mem_replicate.1 hx).2]
    rfl
  | nop | deq | isEmpty | reset =>
    cases h
    rw [List.mem_singleton.1 hx]
    rfl

/-- A text's cycles depend on its lines only by how each reads and by its column entry. -/
theorem assembleText_eq (w : Nat) (lines : List (List Char × Option Bool)) :
    assembleText w lines =
      joinLines ((lines.map fun l => (parseLine l.1, l.2)).map fun l => l.1.bind (assemble w (columnEntry l.2))) := by
  rw [assembleText, List.map_map]
  rfl

theorem assembleProgram_none_txReady {w : Nat} {sts : List Stmt} {xs : List Input}
    (h : assembleProgram w (sts.map fun st => (st, none)) = .ok xs) {x : Input} (hx : x ∈ xs) :
    x.txReady = false := by
  obtain ⟨ys, hys, hxy⟩ := exists_line_of_mem_joinLines h hx
  obtain ⟨l, hl, hl'⟩ := List.mem_map.1 hys
  obtain ⟨st, -, rfl⟩ := List.mem_map.1 hl
  exact assemble_txReady hl' hxy

theorem assembleText_of_parse {w : Nat} {lines : List (List Char × Option Bool)}
    {program : List (Stmt × Option Bool)}
    (h : lines.map (fun l => (parseLine l.1, l.2)) = program.map (fun l => (.ok l.1, l.2))) :
    assembleText w lines = assembleProgram w program := by
  rw [assembleText_eq, h, List.map_map]
  rfl

/-- A line of text that reads as a statement gives what the statement gives. -/
theorem bind_assemble_of_parse {line : List Char} {st : Stmt} (h : parseLine line = .ok st) (w : Nat)
    (entry : Option Bool) :
    (parseLine line).bind (assemble w (columnEntry entry)) = assemble w (entry.getD false) st := by
  rw [h]
  rfl

/-- Settles O51: a program and a text are both the join of their lines, which goes by its first line. -/
theorem programIsTheCyclesOfItsLines : Obligations.ProgramIsTheCyclesOfItsLines := by
  unfold Obligations.ProgramIsTheCyclesOfItsLines
  refine fun w => ⟨rfl, rfl, fun st entry rest xs ys h hr => ?_, fun st entry rest e h => joinLines_cons_of_error h _,
    fun st entry rest xs e h hr => ?_, fun sts xs h x hx => assembleProgram_none_txReady h hx,
    fun lines program h => assembleText_of_parse h, fun line entry rest e h => ?_,
    fun line entry rest st hp => ⟨fun e h => ?_, fun xs e h hr => ?_, fun xs ys h hr => ?_⟩⟩
  · exact (joinLines_cons_of_ok h _).trans (congrArg _ hr)
  · exact (joinLines_cons_of_ok h _).trans (congrArg _ hr)
  · exact joinLines_cons_of_error (congrArg (Except.bind · _) h) _
  · exact joinLines_cons_of_error ((bind_assemble_of_parse hp w entry).trans h) _
  · exact (joinLines_cons_of_ok ((bind_assemble_of_parse hp w entry).trans h) _).trans (congrArg _ hr)
  · exact (joinLines_cons_of_ok ((bind_assemble_of_parse hp w entry).trans h) _).trans (congrArg _ hr)

end Sys2Proof.Machine
end

/-! The reading of a line of text (R69, R70). -/

section
namespace Sys2Proof.Machine

/-! Labels and comments. -/

theorem dropComment_append {s : List Char} (hs : ∀ c ∈ s, c ≠ ';') (comment : List Char) :
    dropComment (s ++ ';' :: comment) = s := by
  rw [dropComment, List.takeWhile_append_of_pos (by simpa using hs)]
  simp

theorem dropComment_of_bare {s : List Char} (hs : ∀ c ∈ s, c ≠ ';') : dropComment s = s :=
  List.takeWhile_eq_self_iff.2 (by simpa using hs)

theorem dropLabel_append {label : List Char} (hl : ∀ c ∈ label, c ≠ ':') (s : List Char) :
    dropLabel (label ++ ':' :: s) = s := by
  rw [dropLabel, List.dropWhile_append_of_pos (by simpa using hl)]
  simp

theorem dropLabel_of_bare {s : List Char} (hs : ∀ c ∈ s, c ≠ ':') : dropLabel s = s := by
  rw [dropLabel, List.dropWhile_eq_nil_iff.2 (by simpa using hs)]

/-- A text with neither a label nor a comment is read for its words alone. -/
theorem parseLine_of_bare {s : List Char} (hs : ∀ c ∈ s, c ≠ ':' ∧ c ≠ ';') :
    parseLine s = parseWords (wordsFrom [] s) := by
  rw [parseLine, dropComment_of_bare fun c h => (hs c h).2, dropLabel_of_bare fun c h => (hs c h).1]

theorem parseLine_comment {s : List Char} (hs : ∀ c ∈ s, c ≠ ';') (comment : List Char) :
    parseLine (s ++ ';' :: comment) = parseLine s := by
  rw [parseLine, parseLine, dropComment_append hs, dropComment_of_bare hs]

theorem ne_semicolon_of_label {label s : List Char} (hl : ∀ c ∈ label, c ≠ ':' ∧ c ≠ ';')
    (hs : ∀ c ∈ s, c ≠ ':' ∧ c ≠ ';') : ∀ c ∈ label ++ ':' :: s, c ≠ ';' := by
  simp only [List.forall_mem_append, List.forall_mem_cons]
  exact ⟨fun c hc => (hl c hc).2, by decide, fun c hc => (hs c hc).2⟩

theorem parseLine_label {label s : List Char} (hl : ∀ c ∈ label, c ≠ ':' ∧ c ≠ ';')
    (hs : ∀ c ∈ s, c ≠ ':' ∧ c ≠ ';') : parseLine (label ++ ':' :: s) = parseLine s := by
  rw [parseLine_of_bare hs, parseLine, dropComment_of_bare (ne_semicolon_of_label hl hs),
    dropLabel_append fun c hc => (hl c hc).1]

/-! Words. -/

/-- A character that neither ends a word nor closes a label nor starts a comment. -/
abbrev Plain (c : Char) : Prop := c ≠ ' ' ∧ c ≠ '\t' ∧ c ≠ ',' ∧ c ≠ ':' ∧ c ≠ ';'

theorem Plain.bare {c : Char} (h : Plain c) : c ≠ ':' ∧ c ≠ ';' := h.2.2.2

theorem wordsFrom_append {w : List Char} (hw : ∀ c ∈ w, Plain c) (word cs : List Char) :
    wordsFrom word (w ++ cs) = wordsFrom (w.reverse ++ word) cs := by
  induction w generalizing word with
  | nil => rfl
  | cons c w ih =>
    obtain ⟨⟨hsp, htab, hcomma, -, -⟩, hw⟩ := List.forall_mem_cons.1 hw
    rw [List.cons_append, wordsFrom]
    simp [hsp, htab, hcomma, ih hw]

theorem wordsFrom_single {w : List Char} (hw : ∀ c ∈ w, Plain c) (hne : w ≠ []) : wordsFrom [] w = [w] := by
  have h := wordsFrom_append hw [] []
  rw [List.append_nil, List.append_nil] at h
  rw [h, wordsFrom]
  simp [hne]

theorem wordsFrom_space {w : List Char} (hw : ∀ c ∈ w, Plain c) (hne : w ≠ []) (cs : List Char) :
    wordsFrom [] (w ++ ' ' :: cs) = w :: wordsFrom [] cs := by
  rw [wordsFrom_append hw, wordsFrom]
  simp [hne]

theorem wordsFrom_comma {w : List Char} (hw : ∀ c ∈ w, Plain c) (hne : w ≠ []) (cs : List Char) :
    wordsFrom [] (w ++ ',' :: cs) = w :: [','] :: wordsFrom [] cs := by
  rw [wordsFrom_append hw, wordsFrom]
  simp [hne]

/-! Numbers. -/

theorem digitValue_digitChar {d : Nat} (hd : d < 16) : digitValue d.digitChar = some d := by
  have h : ∀ d : Fin 16, digitValue d.val.digitChar = some d.val := by decide
  exact h ⟨d, hd⟩

theorem digitsFrom_append (base acc : Nat) (xs ys : List Char) :
    digitsFrom base acc (xs ++ ys) = (digitsFrom base acc xs).bind fun a => digitsFrom base a ys := by
  induction xs generalizing acc with
  | nil => rfl
  | cons c xs ih =>
    rw [List.cons_append, digitsFrom, digitsFrom]
    cases digitValue c with
    | none => rfl
    | some d =>
      by_cases hd : d < base
      · simp only [if_pos hd, ih]
      · simp only [if_neg hd, Option.bind_none]

theorem digitsFrom_digitChar {base d : Nat} (hb : base ≤ 16) (hd : d < base) (acc : Nat) :
    digitsFrom base acc [d.digitChar] = some (acc * base + d) := by
  simp [digitsFrom, digitValue_digitChar (hd.trans_le hb), hd]

/-- The digits of a number read as that number. -/
theorem digitsFrom_toDigits {base : Nat} (h1 : 1 < base) (hb : base ≤ 16) (n : Nat) :
    digitsFrom base 0 (Nat.toDigits base n) = some n := by
  induction n using Nat.strong_induction_on with
  | _ n ih =>
    by_cases hn : n < base
    · rw [Nat.toDigits_of_lt_base hn, digitsFrom_digitChar hb hn, Nat.zero_mul, Nat.zero_add]
    · have hdiv : n / base < n := Nat.div_lt_self (by omega) h1
      rw [Nat.toDigits_of_base_le h1 (not_lt.1 hn), digitsFrom_append, ih _ hdiv, Option.bind_some,
        digitsFrom_digitChar hb (Nat.mod_lt n (by omega)), Nat.div_add_mod']

/-- What reads as a number in some base has digits only. -/
theorem digitValue_of_mem {base acc n : Nat} {xs : List Char} (h : digitsFrom base acc xs = some n) {c : Char}
    (hc : c ∈ xs) : ∃ d, digitValue c = some d := by
  induction xs generalizing acc with
  | nil => cases hc
  | cons x xs ih =>
    rw [digitsFrom] at h
    cases hx : digitValue x with
    | none => simp [hx] at h
    | some d =>
      simp only [hx] at h
      split_ifs at h
      obtain rfl | hc := List.mem_cons.1 hc
      · exact ⟨d, hx⟩
      · exact ih h hc

theorem digitValue_of_mem_toDigits {base n : Nat} (h1 : 1 < base) (hb : base ≤ 16) {c : Char}
    (hc : c ∈ Nat.toDigits base n) : ∃ d, digitValue c = some d :=
  digitValue_of_mem (digitsFrom_toDigits h1 hb n) hc

theorem plain_of_digit {c : Char} (h : ∃ d, digitValue c = some d) : Plain c := by
  obtain ⟨d, hd⟩ := h
  refine ⟨?_, ?_, ?_, ?_, ?_⟩ <;> rintro rfl <;> cases hd

/-- A word that R69 has for the number `n`. -/
def IsNumeral (n : Nat) (word : List Char) : Prop :=
  word = Nat.toDigits 10 n ∨ word = '0' :: 'x' :: Nat.toDigits 16 n

namespace IsNumeral

variable {n : Nat} {word : List Char} (h : IsNumeral n word)
include h

theorem ne_nil : word ≠ [] := by
  obtain rfl | rfl := h
  · exact Nat.toDigits_ne_nil
  · exact List.cons_ne_nil _ _

theorem plain : ∀ c ∈ word, Plain c := by
  obtain rfl | rfl := h
  · exact fun c hc => plain_of_digit (digitValue_of_mem_toDigits (by decide) (by decide) hc)
  · simp only [List.forall_mem_cons]
    exact ⟨by decide, by decide,
      fun c hc => plain_of_digit (digitValue_of_mem_toDigits (by decide) (by decide) hc)⟩

theorem parseImm_eq : parseImm word = .ok n := by
  obtain rfl | rfl := h
  · have hn := digitsFrom_toDigits (base := 10) (by decide) (by decide) n
    have hx : 'x' ∉ Nat.toDigits 10 n := fun hc => by
      obtain ⟨d, hd⟩ := digitValue_of_mem hn hc
      cases hd
    have hne : Nat.toDigits 10 n ≠ [] := Nat.toDigits_ne_nil
    -- with no 'x' in it, the word is not read as hexadecimal
    generalize Nat.toDigits 10 n = ds at hn hx hne
    unfold parseImm
    split
    · exact absurd rfl hne
    · simp at hx
    · simp at hx
    · rw [hn]
  · have hn := digitsFrom_toDigits (base := 16) (by decide) (by decide) n
    have hne : Nat.toDigits 16 n ≠ [] := Nat.toDigits_ne_nil
    generalize Nat.toDigits 16 n = ds at hn hne
    cases ds with
    | nil => exact absurd rfl hne
    | cons d ds => rw [parseImm, hn]

end IsNumeral

/-! Statements. -/

/-- A statement of one number: its mnemonic, a space, and the number. -/
theorem parseLine_operand {m word : List Char} {n : Nat} {mk : Nat → Stmt} (hm : ∀ c ∈ m, Plain c) (hne : m ≠ [])
    (hp : ∀ a, parseWords [m, a] = (parseImm a).map mk) (hn : IsNumeral n word) :
    parseLine (m ++ ' ' :: word) = .ok (mk n) := by
  have hb : ∀ c ∈ m ++ ' ' :: word, c ≠ ':' ∧ c ≠ ';' := by
    simp only [List.forall_mem_append, List.forall_mem_cons]
    exact ⟨fun c hc => (hm c hc).bare, by decide, fun c hc => (hn.plain c hc).bare⟩
  rw [parseLine_of_bare hb, wordsFrom_space hm hne, wordsFrom_single hn.plain hn.ne_nil, hp, hn.parseImm_eq]
  rfl

theorem parseWords_fill (a b : List Char) :
    parseWords [['F', 'I', 'L', 'L'], a, [','], b] =
      match parseImm a, parseImm b with
      | .ok n, .ok v => .ok (.fill n v)
      | .error e, _ => .error e
      | .ok _, .error e => .error e := rfl

theorem parseLine_fill {n v : Nat} {word first : List Char} (hn : IsNumeral n word) (hv : IsNumeral v first) :
    parseLine (['F', 'I', 'L', 'L', ' '] ++ word ++ [',', ' '] ++ first) = .ok (.fill n v) := by
  have hm : ∀ c ∈ ['F', 'I', 'L', 'L'], Plain c := by simp [Plain]
  have hb : ∀ c ∈ ['F', 'I', 'L', 'L'] ++ ' ' :: (word ++ ',' :: ' ' :: first), c ≠ ':' ∧ c ≠ ';' := by
    simp only [List.forall_mem_append, List.forall_mem_cons]
    exact ⟨by simp, by decide, fun c hc => (hn.plain c hc).bare, by decide, by decide,
      fun c hc => (hv.plain c hc).bare⟩
  have hfirst : wordsFrom [] (' ' :: first) = [first] := wordsFrom_single hv.plain hv.ne_nil
  rw [List.append_assoc, List.append_assoc]
  refine (parseLine_of_bare hb).trans ?_
  rw [wordsFrom_space hm (by simp), wordsFrom_comma hn.plain hn.ne_nil, hfirst, parseWords_fill, hn.parseImm_eq,
    hv.parseImm_eq]

/-- Settles O48: the words of each statement are read off, its numbers by their digits; label and comment are dropped
before. -/
theorem labelsAndCommentsAreIgnored : Obligations.LabelsAndCommentsAreIgnored := by
  unfold Obligations.LabelsAndCommentsAreIgnored
  refine ⟨by decide, by decide, by decide, by decide, fun n word hn => ?_, fun label s comment hl hs => ?_⟩
  · exact ⟨parseLine_operand (m := ['E', 'N', 'Q']) (by simp [Plain]) (by simp) (fun _ => rfl) hn,
      parseLine_operand (m := ['E', 'N', 'Q', 'D', 'E', 'Q']) (by simp [Plain]) (by simp) (fun _ => rfl) hn,
      parseLine_operand (m := ['D', 'R', 'A', 'I', 'N']) (by simp [Plain]) (by simp) (fun _ => rfl) hn,
      fun v first hv => parseLine_fill hn hv⟩
  · refine ⟨parseLine_label hl hs, parseLine_comment (fun c hc => (hs c hc).2) comment, ?_⟩
    calc parseLine (label ++ ':' :: (s ++ ';' :: comment))
        = parseLine ((label ++ ':' :: s) ++ ';' :: comment) := by rw [List.append_assoc, List.cons_append]
      _ = parseLine (label ++ ':' :: s) := parseLine_comment (ne_semicolon_of_label hl hs) comment
      _ = parseLine s := parseLine_label hl hs

end Sys2Proof.Machine
end

/-! Proofs about the queue operations (spec/40_queue_ops.md): each operation field by field (R82 to R86), its frame, the
spec's whole-cycle function (R87), the effect on Q(s) (R88), the order of units (R91) and the index arithmetic (R92). -/

section
namespace Sys2Proof.Machine

/-! The ports and the inputs after a cycle with RST = 0, for every instruction. -/

theorem emptyFlag_eq (s : State) : emptyFlag s = decide (s.count = 0) := beq_eq_decide _ _

theorem outputsOf_eq (s : State) (a b : Bool) (d : Word) :
    outputsOf s a b d =
      { enqOk := a, deqOk := b, deqData := d, empty := decide (s.count = 0), txie := s.txie,
        txIrq := s.txie && (sample s).txReady } := by
  rw [outputsOf, emptyFlag_eq, txIrqFlag]

theorem inputsAdvance_clockEdge (s : State) (q : Bool) (r : CoreResult) : InputsAdvance s (clockEdge s q r) :=
  ⟨rfl, rfl⟩

theorem delivers_of_no_request {s : State} {i : Instr} (h : deqReqOf i = false) : delivers s i = false := by
  simp [delivers, h]

/-- Settles O6: RST = 0 selects the decoded instruction, and an empty schedule samples the free draw. -/
theorem stepRunsTheDecodedInstruction : Obligations.StepRunsTheDecodedInstruction := by
  unfold Obligations.StepRunsTheDecodedInstruction
  refine ⟨fun s x xs hx hr => ?_, step_of_schedule_nil⟩
  have hs := sample_cons hx
  rw [step_of_not_rst (hs ▸ hr), hs]

/-! Cycles that change nothing (R82, R86, the dropped ENQ of R83). -/

/-- The whole of a cycle that accepts no unit and asks for no dequeue. -/
theorem exists_exec_idle {s : State} {i : Instr} (hs : Ready s) (ha : acceptedUnit s i = none)
    (hq : deqReqOf i = false) :
    ∃ t, exec i s = .next t ∧ SameBlock s t ∧ InputsAdvance s t ∧
      t.outputs = { enqOk := false, deqOk := false, deqData := 0, empty := decide (s.count = 0), txie := s.txie,
                    txIrq := s.txie && (sample s).txReady } := by
  obtain ⟨t, ht, hb⟩ := exists_exec_sameBlock hs ha hq
  obtain ⟨-, rfl⟩ := exec_eq_next.1 ht
  refine ⟨_, ht, hb, inputsAdvance_clockEdge _ _ _, ?_⟩
  simp [outputsOf_eq, ha, delivers_of_no_request hq]

theorem sameBlock_of_exec {s t : State} {i : Instr} (h : exec i s = .next t) (ha : acceptedUnit s i = none)
    (hq : deqReqOf i = false) : SameBlock s t := by
  obtain ⟨u, hu, hb⟩ := exists_exec_sameBlock (exec_eq_next.1 h).1 ha hq
  exact Host.Outcome.next.inj (hu.symm.trans h) ▸ hb

theorem SameBlock.refl (s : State) : SameBlock s s := ⟨rfl, rfl, rfl, rfl, rfl, rfl⟩

theorem SameBlock.trans {s t u : State} (h : SameBlock s t) (h' : SameBlock t u) : SameBlock s u where
  params := h'.params.trans h.params
  slots := h'.slots.trans h.slots
  head := h'.head.trans h.head
  count := h'.count.trans h.count
  txie := h'.txie.trans h.txie
  initialized := h'.initialized.trans h.initialized

/-- A step whose ports carry no request and no reset is a NOP. -/
theorem sameBlock_of_step {s t : State} (h : step s = .next t) (hrst : (sample s).rst = false)
    (he : (sample s).enqReq = false) (hd : (sample s).deqReq = false) : SameBlock s t := by
  rw [step_of_not_rst hrst, decode_nop ((cmd_enqReq _).trans he) ((cmd_deqReq _).trans hd)] at h
  exact sameBlock_of_exec h (acceptedUnit_nop s) rfl

theorem sameBlock_of_trace {k : Nat} {s u : State} {es : List Event} (h : trace k s = some (es, u))
    (hes : ∀ e ∈ es, e.input.rst = false ∧ e.input.enqReq = false ∧ e.input.deqReq = false) : SameBlock s u := by
  induction k generalizing s es with
  | zero =>
    obtain ⟨-, rfl⟩ : [] = es ∧ s = u := by simpa [trace_zero] using h
    exact SameBlock.refl s
  | succ k ih =>
    obtain ⟨t, fs, ht, hfs, rfl⟩ := trace_succ_eq_some.1 h
    obtain ⟨⟨hrst, he, hd⟩, hrest⟩ := List.forall_mem_cons.1 hes
    exact (sameBlock_of_step ht hrst he hd).trans (ih hfs hrest)

/-- Settles O7: NOP is a cycle with no request, and a run of such cycles changes nothing by induction. -/
theorem nopChangesNothing : Obligations.NopChangesNothing := by
  unfold Obligations.NopChangesNothing
  exact ⟨fun w c => decode_nop, fun s hs => exists_exec_idle hs (acceptedUnit_nop s) rfl,
    fun k s es t => sameBlock_of_trace⟩

/-- Settles O8: every cycle shows EMPTY of the state at its start, and IS_EMPTY is a cycle with no request. -/
theorem emptyOutputAndIsEmpty : Obligations.EmptyOutputAndIsEmpty := by
  unfold Obligations.EmptyOutputAndIsEmpty
  exact ⟨fun s t h => (step_outputs_empty h).trans (emptyFlag_eq s),
    fun s hs => exists_exec_idle hs (acceptedUnit_isEmpty s) rfl⟩

/-! ENQ, DEQ and ENQDEQ, outcome by outcome (R83 to R85). -/

/-- An accepted unit leaves a queue that is not empty, unless the only unit is taken in the same cycle; then the
accepted one is left. So `txie` is set (R110). -/
theorem clockEdge_txie_of_accepted {s : State} {i : Instr} {v : Word} (ha : acceptedUnit s i = some v) (q : Bool) :
    (clockEdge s q (coreOf s i)).txie = true := by
  have hle := delivers_toNat_le s i
  have hpos : (coreOf s i).count ≠ 0 := by
    rw [coreOf_count, ha, Option.isSome_some, Bool.toNat_true]
    omega
  simp only [clockEdge_txie, txieNext, coreOf_enqOk, ha, Option.isSome_some, Bool.true_or, if_true,
    decide_eq_true hpos]

/-- Settles O9: a queue that is not full accepts the unit; a full one accepts none, which leaves an idle cycle. -/
theorem enqStoresAtTheTailOrDrops : Obligations.EnqStoresAtTheTailOrDrops := by
  unfold Obligations.EnqStoresAtTheTailOrDrops
  refine ⟨fun w c => decode_enq, fun s v hs hc => ?_,
    fun s v hs hf => exists_exec_idle hs (acceptedUnit_of_full hf _) rfl⟩
  have ha := acceptedUnit_enq hc v
  refine ⟨_, exec_of_ready hs (.enq v), ?_, ?_, ?_, clockEdge_txie_of_accepted ha _, rfl, rfl,
    inputsAdvance_clockEdge _ _ _, ?_⟩
  · simp [ha, slotWrite, tail]
  · simp
  · simp [ha]
  · simp [outputsOf_eq, ha]

/-- What a cycle that delivers a unit and accepts none leaves: a DEQ with a unit to take, and an ENQDEQ on a full
queue (R84, R85). -/
theorem exists_exec_of_dequeue_alone {s : State} {i : Instr} (hs : Ready s) (ha : acceptedUnit s i = none)
    (hd : delivers s i = true) :
    ∃ t, exec i s = .next t ∧
      t.slots = s.slots ∧ t.head = (s.head + 1) % s.params.cap ∧ t.count = s.count - 1 ∧
      t.txie = decide (s.count - 1 ≠ 0) ∧ t.params = s.params ∧ t.initialized = s.initialized ∧ InputsAdvance s t ∧
      t.outputs = { enqOk := false, deqOk := true, deqData := slotRead s s.head, empty := false, txie := s.txie,
                    txIrq := s.txie && (sample s).txReady } := by
  obtain ⟨hq, h0⟩ := delivers_eq_true.1 hd
  refine ⟨_, exec_of_ready hs i, ?_, ?_, ?_, ?_, rfl, rfl, inputsAdvance_clockEdge _ _ _, ?_⟩
  · simp [ha]
  · simp [hd, headNext]
  · simp [ha, hd]
  · simp [ha, hd, hq, txieNext]
  · simp [outputsOf_eq, ha, hd, Nat.ne_of_gt h0]

/-- Settles O10: with a unit queued DEQ is a dequeue alone; on an empty queue it delivers nothing and clears `txie`. -/
theorem deqReturnsTheHeadOrReportsEmpty : Obligations.DeqReturnsTheHeadOrReportsEmpty := by
  unfold Obligations.DeqReturnsTheHeadOrReportsEmpty
  refine ⟨fun w c => decode_deq,
    fun s hs h0 => exists_exec_of_dequeue_alone hs (acceptedUnit_deq s) (delivers_deq h0), fun s hs h0 => ?_⟩
  have hd := delivers_of_empty h0 .deq
  refine ⟨_, exec_of_ready hs .deq, ?_, ?_, ?_, ?_, rfl, rfl, inputsAdvance_clockEdge _ _ _, ?_⟩
  · simp
  · simp [hd]
  · simp [hd, h0]
  · simp [hd, h0, deqReqOf, txieNext]
  · simp [outputsOf_eq, hd, h0]

/-- Settles O11: an empty queue delivers nothing, a full one accepts nothing, any other does both, at two slots. -/
theorem enqdeqJudgesBothOnTheStartOfCycle : Obligations.EnqdeqJudgesBothOnTheStartOfCycle := by
  unfold Obligations.EnqdeqJudgesBothOnTheStartOfCycle
  refine ⟨fun w c => decode_enqdeq, fun s v hs h0 => ?_, fun s v hs hf => ?_, fun s v hs h0 hc => ?_⟩
  · have ha := acceptedUnit_enq (h0 ▸ hs.legal.1 : s.count < s.params.cap) v
    have hd := delivers_of_empty h0 .deq
    have ht : tail s = s.head := by rw [tail, h0, Nat.add_zero, Nat.mod_eq_of_lt hs.head_lt]
    refine ⟨_, exec_of_ready hs (.enqdeq v), ?_, ?_, ?_, clockEdge_txie_of_accepted (i := .enqdeq v) ha _, rfl,
      rfl, inputsAdvance_clockEdge _ _ _, ?_⟩
    · simp [ha, ht, slotWrite]
    · simp [hd]
    · simp [ha, hd, h0]
    · simp [outputsOf_eq, ha, hd, h0]
  · have hd : delivers s (.enqdeq v) = true := delivers_deq (hf ▸ hs.legal.1)
    simpa only [hf] using exists_exec_of_dequeue_alone hs (acceptedUnit_of_full hf _) hd
  · have ha := acceptedUnit_enq hc v
    have hd := delivers_deq h0
    refine ⟨_, exec_of_ready hs (.enqdeq v), ?_, tail_ne_head hs.head_lt h0 hc, ?_, ?_,
      clockEdge_txie_of_accepted (i := .enqdeq v) ha _, rfl, rfl, inputsAdvance_clockEdge _ _ _, ?_⟩
    · simp [ha, slotWrite, tail]
    · simp [hd, headNext]
    · simp [ha, hd]
    · simp [outputsOf_eq, ha, hd, Nat.ne_of_gt h0]

/-! Frames. -/

theorem length_slots_clockEdge (s : State) (q : Bool) (i : Instr) :
    (clockEdge s q (coreOf s i)).slots.length = s.slots.length := by
  cases ha : acceptedUnit s i with
  | none => simp [ha]
  | some v => simp [ha, length_slotWrite]

theorem head_clockEdge_of_not_delivers {s : State} {i : Instr} (hd : delivers s i = false) (q : Bool) :
    (clockEdge s q (coreOf s i)).head = s.head := by simp [hd]

/-- Settles O14: none of the three accepts a unit, and where nothing is delivered `head` and `count` stay. -/
theorem frameOfCyclesThatStoreNothing : Obligations.FrameOfCyclesThatStoreNothing := by
  unfold Obligations.FrameOfCyclesThatStoreNothing
  intro i s t hi h
  have ha : acceptedUnit s i = none := by rcases hi with rfl | rfl | rfl <;> simp
  have hq : i ≠ .deq → deqReqOf i = false := by rcases hi with rfl | rfl | rfl <;> simp [deqReqOf]
  obtain ⟨-, ht⟩ := exec_eq_next.1 h
  refine ⟨fun a => ?_, ?_, ?_, ?_, fun hstay => ?_, fun hne => (sameBlock_of_exec h ha (hq hne)).txie⟩
  · rw [ht, slotRead_clockEdge_of_dropped ha]
  · rw [ht, length_slots_clockEdge]
  · rw [ht, clockEdge_params]
  · rw [ht, clockEdge_initialized]
  · have hd : delivers s i = false :=
      hstay.elim (fun hne => delivers_of_no_request (hq hne)) fun h0 => delivers_of_empty h0 i
    rw [ht]
    exact ⟨head_clockEdge_of_not_delivers hd _, by simp [ha, hd]⟩

/-- Settles O15: only the tail's slot can be written, a full queue accepts nothing, and `head` moves with a delivered
unit alone. -/
theorem frameOfCyclesThatEnqueue : Obligations.FrameOfCyclesThatEnqueue := by
  unfold Obligations.FrameOfCyclesThatEnqueue
  intro i v s t _ h
  obtain ⟨-, ht⟩ := exec_eq_next.1 h
  refine ⟨fun a hne => ?_, fun hf a => ?_, ?_, ?_, ?_, fun hstay => ?_, fun hi hf => ?_⟩
  · rw [ht, slotRead_clockEdge_of_ne hne]
  · rw [ht, slotRead_clockEdge_of_dropped (acceptedUnit_of_full hf i)]
  · rw [ht, length_slots_clockEdge]
  · rw [ht, clockEdge_params]
  · rw [ht, clockEdge_initialized]
  · have hd : delivers s i = false := hstay.elim (fun hi => hi ▸ delivers_enq s v) fun h0 => delivers_of_empty h0 i
    rw [ht, head_clockEdge_of_not_delivers hd]
  · have hb := sameBlock_of_exec h (acceptedUnit_of_full hf i) (hi ▸ rfl)
    exact ⟨hb.count, hb.txie⟩

/-! The whole-cycle function of R87: what the core accepts and delivers, by the two request bits. -/

theorem acceptedUnit_decode_isSome (s : State) (w : Nat) (c : Command) :
    (acceptedUnit s (decode w c)).isSome = (c.getLsbD 1 && decide (s.count < s.params.cap)) := by
  have hunit : (enqUnit (decode w c)).isSome = c.getLsbD 1 := by
    unfold decode
    cases c.getLsbD 1 <;> cases c.getLsbD 0 <;> rfl
  rw [← hunit]
  by_cases hc : s.count < s.params.cap <;> simp [acceptedUnit, hc]

theorem deqReqOf_decode (w : Nat) (c : Command) : deqReqOf (decode w c) = c.getLsbD 0 := by
  unfold decode
  cases c.getLsbD 1 <;> cases c.getLsbD 0 <;> rfl

/-- Settles O13: a reset cycle by the reset values; else R87's ENQ_OK and DEQ_OK are what the core accepts and
delivers, and its text is then the core's result and R110. -/
theorem stepIsTheWholeCycleFunction : Obligations.StepIsTheWholeCycleFunction := by
  unfold Obligations.StepIsTheWholeCycleFunction
  intro s hl hc h
  cases hr : (sample s).rst with
  | true =>
    rw [step_of_rst hr]
    refine ⟨_, resetCycle_eq_next.2 ⟨⟨hl, hc⟩, rfl⟩, ?_⟩
    simp [rule87, outputsOf_eq]
  | false =>
    have hs : Ready s := h.resolve_left (by simp [hr])
    refine ⟨_, step_of_ready hs hr, ?_⟩
    set c := (sample s).cmd
    simp only [rule87, Bool.not_false, Bool.and_true, Bool.false_eq_true, if_false, gt_iff_lt,
      ← acceptedUnit_decode_isSome s s.params.w c, ← deqReqOf_decode s.params.w c]
    cases ha : acceptedUnit s (decode s.params.w c) with
    | none => simp [ha, delivers, outputsOf_eq, headNext, txieNext, slotRead]
    | some v =>
      have hv := enqUnit_decode (acceptedUnit_eq_some.1 ha).2
      simp [ha, ← hv, delivers, outputsOf_eq, headNext, txieNext, slotRead, slotWrite, tail]

/-! Runs of the host's core (R80, R159). -/

theorem run_succ_of_step {s t : State} (h : step s = .next t) (k : Nat) :
    Host.Core.run Sys2Proof.core (k + 1) s = Host.Core.run Sys2Proof.core k t := by
  have hstep : Sys2Proof.core.step s = .next t := h
  simp only [Host.Core.run, hstep]

/-- From a state that meets the invariant every run goes through and ends in one that does. -/
theorem exists_run_of_inv {s : State} (hs : BlockInv s) (k : Nat) :
    ∃ t : State, Host.Core.run Sys2Proof.core k s = .next t ∧ BlockInv t := by
  induction k generalizing s with
  | zero => exact ⟨s, rfl, hs⟩
  | succ k ih =>
    obtain ⟨t, ht, hinv, -⟩ := everyCycleKeepsTheInvariant s hs
    exact run_succ_of_step ht k ▸ ih hinv

/-- Settles O32: a block just reset meets the invariant whatever its schedule. -/
theorem everyRunFromResetGoesThrough : Obligations.EveryRunFromResetGoesThrough := by
  unfold Obligations.EveryRunFromResetGoesThrough
  intro p slots xs k hl hc hs
  exact exists_run_of_inv
    (blockInv_of_reset_values (s := (State.afterReset p slots).withSchedule xs) hl hc ⟨hs.length, hs.fits⟩
      rfl rfl rfl rfl) k

/-! Index arithmetic (R92). -/

theorem Ready.head_lt_two_pow {s : State} (h : Ready s) : s.head < 2 ^ s.params.headW :=
  calc s.head < s.params.cap := h.head_lt
    _ ≤ 2 ^ ceilLog2 s.params.cap := le_two_pow_ceilLog2 _
    _ ≤ 2 ^ s.params.headW := Nat.pow_le_pow_right two_pos (le_max_right _ _)

theorem Ready.count_lt_two_pow {s : State} (h : Ready s) : s.count < 2 ^ s.params.countW :=
  lt_of_lt_of_le (Nat.lt_succ_of_le h.count_le) (le_two_pow_ceilLog2 _)

/-- Settles O33: a ready block's indices are in range, and a cycle moves them by its two outcomes. -/
theorem indexArithmeticNeverOverflows : Obligations.IndexArithmeticNeverOverflows := by
  unfold Obligations.IndexArithmeticNeverOverflows
  refine ⟨fun s hs => ⟨?_, hs.ready.head_lt_two_pow, hs.ready.count_lt_two_pow⟩, fun s t _ hr h => ?_⟩
  · have hh := hs.ready.head_lt
    have hc := hs.ready.count_le
    omega
  · obtain ⟨hhead, hcount⟩ := (headAndCountFollowTheOutcomes s t h).2 hr
    have hp := step_params h
    refine ⟨?_, ?_, hp ▸ (step_ready h).count_le, hp ▸ (step_ready h).count_lt_two_pow⟩
    · rw [hhead]
      split
      · exact .inr rfl
      · exact .inl rfl
    · have he := t.outputs.enqOk.toNat_le
      have hd := t.outputs.deqOk.toNat_le
      omega

/-! The effect on Q(s) (R88). -/

/-- A dequeue alone takes the unit it shows on DEQ_DATA. -/
theorem queue_eq_deqData_cons {s : State} {i : Instr} (hr : Ready s) (hs : Shaped s) (q : Bool)
    (ha : acceptedUnit s i = none) (hd : delivers s i = true) :
    queue s = (clockEdge s q (coreOf s i)).outputs.deqData :: queue (clockEdge s q (coreOf s i)) := by
  simpa [ha, hd] using queue_balance_clockEdge hr hs q i

theorem exists_exec_queue_eq {s : State} {i : Instr} (hs : Ready s) (ha : acceptedUnit s i = none)
    (hq : deqReqOf i = false) : ∃ t, exec i s = .next t ∧ queue t = queue s := by
  obtain ⟨t, ht, hb⟩ := exists_exec_sameBlock hs ha hq
  exact ⟨t, ht, queue_congr hb.params hb.slots hb.head hb.count⟩

/-- Settles O36: an accepted unit joins the back of Q(s) and a delivered one leaves its front, whichever of the two
happen. -/
theorem effectOnTheAbstractQueue : Obligations.EffectOnTheAbstractQueue := by
  unfold Obligations.EffectOnTheAbstractQueue
  intro s v hr hs
  refine ⟨⟨_, exec_of_ready hr (.enq v), fun hc => ?_, fun hf => ?_⟩,
    ⟨_, exec_of_ready hr .deq, fun h0 => ?_, fun h0 => ?_⟩,
    ⟨_, exec_of_ready hr (.enqdeq v), fun h0 hc => ?_, fun h0 => ?_, fun hf => ?_⟩,
    exists_exec_queue_eq hr (acceptedUnit_nop s) rfl, exists_exec_queue_eq hr (acceptedUnit_isEmpty s) rfl⟩
  · simp [queue_clockEdge hr hs, acceptedUnit_enq hc]
  · simp [queue_clockEdge hr hs, acceptedUnit_of_full hf]
  · exact queue_eq_deqData_cons hr hs _ (acceptedUnit_deq s) (delivers_deq (Nat.pos_of_ne_zero h0))
  · simp [queue_clockEdge hr hs, queue_of_empty h0]
  · obtain ⟨rest, hrest⟩ := List.head?_eq_some_iff.1 (head?_queue hr h0)
    refine ⟨rest, ?_, ?_⟩
    · simp [hrest, delivers_deq h0]
    · simp [queue_clockEdge hr hs, hrest, acceptedUnit_enq hc, delivers_deq h0]
  · have hc : s.count < s.params.cap := h0 ▸ hr.legal.1
    simp [queue_clockEdge hr hs, queue_of_empty h0, acceptedUnit_enq hc, delivers_of_empty h0]
  · exact queue_eq_deqData_cons hr hs _ (acceptedUnit_of_full hf _) (delivers_deq (hf ▸ hr.legal.1))

/-! The order of the units (R91). -/

/-- What a cycle delivers was queued at its start: there is no bypass (R85). -/
theorem delivered_step_prefix_queue {s t : State} (h : step s = .next t) :
    delivered [⟨sample s, t.outputs⟩] <+: queue s := by
  obtain ⟨-, -, -, rfl⟩ | ⟨-, hr, rfl⟩ := step_cases h
  · exact List.nil_prefix
  · rw [delivered_clockEdge]
    split
    · rename_i hd
      obtain ⟨rest, hq⟩ := List.head?_eq_some_iff.1 (head?_queue hr (delivers_eq_true.1 hd).2)
      exact ⟨rest, hq.symm⟩
    · exact List.nil_prefix

/-- Over a run without reset, the units delivered are the first of those that Q(s) held and those accepted before the
last cycle. -/
theorem delivered_trace_prefix {k : Nat} {s u : State} {es : List Event} (hs : Shaped s)
    (h : trace k s = some (es, u)) (hes : NoReset es) :
    delivered es <+: queue s ++ accepted s.params.w es.dropLast := by
  induction k generalizing s es with
  | zero =>
    obtain ⟨rfl, rfl⟩ : [] = es ∧ s = u := by simpa [trace_zero] using h
    exact List.nil_prefix
  | succ k ih =>
    obtain ⟨t, fs, ht, hfs, rfl⟩ := trace_succ_eq_some.1 h
    obtain ⟨hrst, hfs'⟩ := List.forall_mem_cons.1 hes
    have hrest := ih (step_keeps_shape hs ht) hfs hfs'
    cases fs with
    | nil => exact (delivered_step_prefix_queue ht).trans (List.prefix_append _ _)
    | cons f gs =>
      rw [List.dropLast_cons_cons, accepted_cons, delivered_cons, ← List.append_assoc, queue_balance_step hs hrst ht,
        List.append_assoc, ← step_params ht]
      exact (List.prefix_append_right_inj _).2 hrest

/-- Settles O37: a reset edge leaves Q(s) empty, so the balance of the run speaks of accepted and delivered units
alone. -/
theorem unitsAreDeliveredInTheOrderAccepted : Obligations.UnitsAreDeliveredInTheOrderAccepted := by
  unfold Obligations.UnitsAreDeliveredInTheOrderAccepted
  intro s0 s k es t hs0 hr hs h hes
  have hshape := step_keeps_shape hs0 hs
  have hbal := queue_balance_trace hshape h hes
  have hpre := delivered_trace_prefix hshape h hes
  rw [(queue_of_step_rst hr hs).1, List.nil_append] at hbal hpre
  exact ⟨hbal, hpre⟩

end Sys2Proof.Machine
end

/-! Proofs about the gating logic (spec/41_irq_gating.md): the update of `txie` (R110, R115), the two outputs (R112,
R113), and the peripherals whose transmit enables they are (R117). -/

section
namespace Sys2Proof.Machine

/-! The update of `txie` (R110). -/

/-- R110 of a step, by what the ports show of the cycle. -/
theorem step_txie {s t : State} (hr : (sample s).rst = false) (h : step s = .next t) :
    t.txie = txieNext t.outputs.enqOk (sample s).deqReq t.count s.txie := by
  obtain ⟨hr', -, -, -⟩ | ⟨-, -, rfl⟩ := step_cases h
  · simp [hr] at hr'
  · rw [clockEdge_txie, deqReqOf_decode, cmd_deqReq]
    rfl

/-- A cycle that asks for a dequeue and accepts no unit sets `txie` by the count that is left: one less, and none if
the queue was empty. -/
theorem clockEdge_txie_of_dequeue_alone {s : State} {i : Instr} (ha : acceptedUnit s i = none)
    (hq : deqReqOf i = true) :
    (clockEdge s (deqReqOf i) (coreOf s i)).txie = decide (s.count - 1 ≠ 0) := by
  have hcount : (coreOf s i).count = s.count - 1 := by
    by_cases h0 : 0 < s.count
    · simp [ha, delivers, hq, h0]
    · simp [ha, delivers, hq, Nat.eq_zero_of_not_pos h0]
  rw [clockEdge_txie, hcount, hq, txieNext, Bool.or_true, if_pos rfl]

/-- Settles O20: an accepted unit sets `txie`; a DEQ, and an ENQDEQ on a full queue, are a dequeue alone; NOP and a
dropped ENQ leave the block. -/
theorem txieFollowsTheUpdateRule : Obligations.TxieFollowsTheUpdateRule := by
  unfold Obligations.TxieFollowsTheUpdateRule
  refine ⟨fun s t => step_txie, fun s v hs => ⟨?_, ⟨_, exec_of_ready hs (.enq v), fun hc => ?_, fun hf => ?_⟩,
    ⟨_, exec_of_ready hs .deq, ?_⟩, ⟨_, exec_of_ready hs (.enqdeq v), fun hc => ?_, fun hf => ?_⟩⟩⟩
  · obtain ⟨t, ht, hb⟩ := exists_exec_sameBlock hs (acceptedUnit_nop s) rfl
    exact ⟨t, ht, hb.txie⟩
  · exact clockEdge_txie_of_accepted (acceptedUnit_enq hc v) _
  · exact (sameBlock_of_exec (exec_of_ready hs (.enq v)) (acceptedUnit_of_full hf _) rfl).txie
  · rw [clockEdge_txie_of_dequeue_alone (acceptedUnit_deq s) rfl]
    exact ⟨fun h1 => decide_eq_false (by omega), fun h1 => decide_eq_true (by omega)⟩
  · exact clockEdge_txie_of_accepted (i := .enqdeq v) (acceptedUnit_enq hc v) _
  · rw [clockEdge_txie_of_dequeue_alone (acceptedUnit_of_full hf _) rfl, hf]

/-- Settles O22: with RST = 0, no accepted enqueue and no dequeue request, R110 leaves `txie`. -/
theorem txieIsWrittenByNothingElse : Obligations.TxieIsWrittenByNothingElse := by
  unfold Obligations.TxieIsWrittenByNothingElse
  intro s t h hne
  by_contra hno
  obtain ⟨hr, he, hq⟩ :
      (sample s).rst = false ∧ t.outputs.enqOk = false ∧ (sample s).deqReq = false := by simpa using hno
  exact hne (by simpa [txieNext, he, hq] using step_txie hr h)

/-! The gated interrupt request (R112, R113). -/

theorem step_outputs_txIrq {s t : State} (h : step s = .next t) :
    t.outputs.txIrq = (s.txie && (sample s).txReady) := by
  obtain ⟨-, -, -, rfl⟩ | ⟨-, -, rfl⟩ := step_cases h <;> rfl

/-- Both outputs of the gating logic in one cycle. -/
theorem step_outputs_gating {s t : State} (h : step s = .next t) :
    t.outputs.txie = s.txie ∧ t.outputs.txIrq = (s.txie && (sample s).txReady) :=
  ⟨step_outputs_txie h, step_outputs_txIrq h⟩

/-- Settles O21: both outputs read the state at the start of the cycle, whichever of the two kinds the cycle is. -/
theorem txIrqIsGatedByTxie : Obligations.TxIrqIsGatedByTxie := by
  unfold Obligations.TxIrqIsGatedByTxie
  refine ⟨fun s t h => ⟨step_outputs_txie h, step_outputs_txIrq h, fun h0 => ?_⟩,
    fun s t u _ hu => step_outputs_gating hu⟩
  rw [step_outputs_txIrq h, h0, Bool.false_and]

/-! The transmit enables of the peripherals (R117). -/

/-- Nothing in the invariant speaks of the role. -/
theorem BlockInv.inRole {s : State} (h : BlockInv s) (r : Role) : BlockInv (s.inRole r) where
  ready := ⟨h.ready.legal, h.ready.spsc, h.ready.initialized, h.ready.head_lt, h.ready.count_le⟩
  shaped := ⟨h.shaped.length, h.shaped.fits⟩
  txie_eq := h.txie_eq

theorem BlockInv.txie_eq_not_emptyFlag {s : State} (h : BlockInv s) : s.txie = !emptyFlag s := by
  rw [h.txie_eq, emptyFlag_eq, decide_not]

theorem exists_step_of_inv {s : State} (h : BlockInv s) :
    ∃ t, step s = .next t ∧ BlockInv t ∧ t.txie = !emptyFlag t := by
  obtain ⟨t, ht, hinv, -⟩ := everyCycleKeepsTheInvariant s h
  exact ⟨t, ht, hinv, hinv.txie_eq_not_emptyFlag⟩

theorem blockInv_reset : BlockInv State.reset := invariantHoldsAfterReset.1

/-- Settles O50: a bridge's cycle is one step of each instance, so what holds of a step and of the invariant of one
block holds on either side. -/
theorem enablesFollowTheDrainingPeripheral : Obligations.EnablesFollowTheDrainingPeripheral := by
  unfold Obligations.EnablesFollowTheDrainingPeripheral
  refine ⟨fun b b' h => ?_, fun s t => step_outputs_gating, fun b ha hs => ?_, fun s => exists_step_of_inv,
    blockInv_reset.inRole _, blockInv_reset.inRole _⟩
  · obtain ⟨ha, hs⟩ := bridgeStep_eq_next.1 h
    obtain ⟨henableA, hirqA⟩ := step_outputs_gating ha
    obtain ⟨henableC, hirqC⟩ := step_outputs_gating hs
    exact ⟨henableA, hirqA, henableC, hirqC⟩
  · obtain ⟨a, hstepA, hinvA, henableA⟩ := exists_step_of_inv (ha.inRole .asyncToSync)
    obtain ⟨c, hstepC, hinvC, henableC⟩ := exists_step_of_inv (hs.inRole .syncToAsync)
    exact ⟨⟨a, c⟩, bridgeStep_eq_next.2 ⟨hstepA, hstepC⟩, hinvA, hinvC, henableA, henableC⟩

end Sys2Proof.Machine
end

/-! Proofs about exceptions (spec/60_exceptions.md): there are none, and full and empty are outcomes (R130). -/

section
namespace Sys2Proof.Machine

/-- The block has no exception cause codes (R130), so nothing answers one. -/
theorem ne_fault (o : Host.Outcome State Fault Refusal) (r : Fault) : o ≠ .fault r := nomatch r

/-- Settles O12: no fault exists to answer, and every ready state has a next one, which shows ENQ_OK by whether the unit
is accepted, and DEQ_OK and DEQ_DATA by whether one is delivered. -/
theorem fullAndEmptyAreOutcomesNotFaults : Obligations.FullAndEmptyAreOutcomesNotFaults := by
  unfold Obligations.FullAndEmptyAreOutcomesNotFaults
  refine ⟨fun s => ne_fault (step s), fun i s => ne_fault (exec i s),
    fun s v hs hc => ⟨_, exec_of_ready hs (.enq v), ?_⟩, fun s v hs hf => ⟨_, exec_of_ready hs (.enq v), ?_⟩,
    fun s hs h0 => ⟨_, exec_of_ready hs .deq, ?_⟩, fun s hs h0 => ⟨_, exec_of_ready hs .deq, ?_⟩⟩
  · simp [acceptedUnit_enq hc]
  · simp [acceptedUnit_of_full hf]
  · have hpos := Nat.pos_of_ne_zero h0
    simp [delivers_deq hpos, head?_queue hs hpos]
  · simp [delivers_of_empty h0]

end Sys2Proof.Machine
end

/-! Proofs about reset and hazards (spec/70_reset_and_hazards.md): the reset cycle (R150, R151), what a block refuses
before it (R152) and for its agents (R158), and what each side sees and when (R154 to R157). -/

section
namespace Sys2Proof.Machine

/-! The refusals (R152, R158). -/

theorem buildRefusal_ne_beforeFirstReset (p : Params) : buildRefusal p ≠ some .beforeFirstReset := by
  unfold buildRefusal
  split_ifs <;> simp

theorem cycleRefusal_of_not_initialized {s : State} (hl : s.params.Legal) (hc : s.params.Spsc)
    (hi : s.initialized = false) : cycleRefusal s = some .beforeFirstReset := by
  rw [cycleRefusal, buildRefusal_eq_none.2 ⟨hl, hc⟩]
  exact if_pos hi

theorem cycleRefusal_ne_beforeFirstReset {s : State} (hi : s.initialized = true) :
    cycleRefusal s ≠ some .beforeFirstReset := by
  intro h
  cases hb : buildRefusal s.params with
  | some e =>
    rw [cycleRefusal_of_buildRefusal hb, ← hb] at h
    exact buildRefusal_ne_beforeFirstReset _ h
  | none =>
    -- past the build and the first reset edge, only the indices are judged
    simp only [cycleRefusal, hb, hi, Bool.true_eq_false, if_false] at h
    split at h <;> simp at h

/-- A refusal of the build stops every cycle, reset cycles included. -/
theorem step_eq_refused_of_buildRefusal {s : State} {e : Refusal} (h : buildRefusal s.params = some e) :
    step s = .refused e := by
  cases hr : (sample s).rst with
  | true => rw [step_of_rst hr, resetCycle_eq_refused, h]
  | false => rw [step_of_not_rst hr, exec_eq_refused, cycleRefusal_of_buildRefusal h]

/-- Settles O27: other than one agent on a port is a refusal of the build, so of every cycle. -/
theorem secondAgentOnAPortIsRefused : Obligations.SecondAgentOnAPortIsRefused := by
  unfold Obligations.SecondAgentOnAPortIsRefused
  intro s hl hne
  have hb : buildRefusal s.params = some .brokenSpscContract :=
    buildRefusal_of_not_spsc hl fun ⟨hp, hc⟩ => hne.elim (absurd hp) (absurd hc)
  exact ⟨step_eq_refused_of_buildRefusal hb, fun i => exec_eq_refused.2 (cycleRefusal_of_buildRefusal hb)⟩

/-- In a rightly built block a reset cycle completes from any state. -/
theorem step_of_rst_of_built {s : State} (hl : s.params.Legal) (hc : s.params.Spsc) (hr : (sample s).rst = true) :
    step s = .next (resetEdge s) := by
  rw [step_of_rst hr]
  exact resetCycle_eq_next.2 ⟨⟨hl, hc⟩, rfl⟩

/-- Settles O25: past the build, `initialized` is judged first in a cycle with RST = 0, and not at all in a reset
cycle. -/
theorem cyclesBeforeTheFirstResetAreRefused : Obligations.CyclesBeforeTheFirstResetAreRefused := by
  unfold Obligations.CyclesBeforeTheFirstResetAreRefused
  refine ⟨fun s hl hc hi hr => ?_, fun i s hl hc hi => exec_eq_refused.2 (cycleRefusal_of_not_initialized hl hc hi),
    fun s hl hc hr => ⟨_, step_of_rst_of_built hl hc hr, rfl⟩, fun s hi h => ?_⟩
  · rw [step_of_not_rst hr, exec_eq_refused, cycleRefusal_of_not_initialized hl hc hi]
  · cases hr : (sample s).rst with
    | true =>
      rw [step_of_rst hr, resetCycle_eq_refused] at h
      exact buildRefusal_ne_beforeFirstReset _ h
    | false =>
      rw [step_of_not_rst hr, exec_eq_refused] at h
      exact cycleRefusal_ne_beforeFirstReset hi h

/-! Runs whose events are known: a property that every step with such an event keeps, and that every such step shows
on the ports, holds of the whole run. -/

theorem trace_induction_of_events {R : Event → Prop} {P : State → Prop} {Q : Event → Prop}
    (hstep : ∀ s t, P s → step s = .next t → R ⟨sample s, t.outputs⟩ → P t ∧ Q ⟨sample s, t.outputs⟩) {k : Nat}
    {s u : State} {es : List Event} (hs : P s) (h : trace k s = some (es, u)) (hes : ∀ e ∈ es, R e) :
    P u ∧ ∀ e ∈ es, Q e := by
  induction k generalizing s es with
  | zero =>
    obtain ⟨rfl, rfl⟩ : [] = es ∧ s = u := by simpa [trace_zero] using h
    exact ⟨hs, by simp⟩
  | succ k ih =>
    obtain ⟨t, fs, ht, hfs, rfl⟩ := trace_succ_eq_some.1 h
    obtain ⟨hR, hRs⟩ := List.forall_mem_cons.1 hes
    obtain ⟨hPt, hQ⟩ := hstep s t hs ht hR
    obtain ⟨hPu, hQs⟩ := ih hPt hfs hRs
    exact ⟨hPu, List.forall_mem_cons.2 ⟨hQ, hQs⟩⟩

theorem trace_keeps_of_events {R : Event → Prop} {P : State → Prop}
    (hstep : ∀ s t, P s → step s = .next t → R ⟨sample s, t.outputs⟩ → P t) {k : Nat}
    {s u : State} {es : List Event} (hs : P s) (h : trace k s = some (es, u)) (hes : ∀ e ∈ es, R e) : P u :=
  (trace_induction_of_events (Q := fun _ => True) (fun s t hP ht hR => ⟨hstep s t hP ht hR, trivial⟩) hs h hes).1

/-! The reset cycle (R34, R150, R151). -/

/-- The block of `t` is what reset edges leave of the block of `s`: the values of R34, the slots as they were (R150). -/
structure ResetOf (s t : State) : Prop where
  head : t.head = 0
  count : t.count = 0
  txie : t.txie = false
  slots : t.slots = s.slots
  params : t.params = s.params
  initialized : t.initialized = true

theorem step_of_rst_cases {s t : State} (hr : (sample s).rst = true) (h : step s = .next t) :
    s.params.Legal ∧ s.params.Spsc ∧ t = resetEdge s := by
  obtain ⟨-, hl, hc, ht⟩ | ⟨hr', -, -⟩ := step_cases h
  · exact ⟨hl, hc, ht⟩
  · simp [hr] at hr'

theorem resetOf_step {s t : State} (hr : (sample s).rst = true) (h : step s = .next t) : ResetOf s t := by
  obtain ⟨-, -, rfl⟩ := step_of_rst_cases hr h
  exact ⟨rfl, rfl, rfl, rfl, rfl, rfl⟩

/-- A further reset edge changes nothing. -/
theorem ResetOf.step_rst {s t u : State} (h : ResetOf s t) (hr : (sample t).rst = true) (hu : step t = .next u) :
    ResetOf s u :=
  have hlast := resetOf_step hr hu
  { hlast with slots := hlast.slots.trans h.slots, params := hlast.params.trans h.params }

theorem resetOf_trace {k : Nat} {s u : State} {es : List Event} (h : trace (k + 1) s = some (es, u))
    (hes : ∀ e ∈ es, e.input.rst = true) : ResetOf s u := by
  obtain ⟨t, fs, ht, hfs, rfl⟩ := trace_succ_eq_some.1 h
  obtain ⟨hr, hrs⟩ := List.forall_mem_cons.1 hes
  exact trace_keeps_of_events (R := fun e => e.input.rst = true) (fun _ _ hv hu hr => hv.step_rst hr hu)
    (resetOf_step hr ht) hfs hrs

theorem txIrq_of_txie_false {s t : State} (ht : s.txie = false) (h : step s = .next t) : t.outputs.txIrq = false := by
  rw [step_outputs_txIrq h, ht, Bool.false_and]

/-- Settles O23: the reset edge writes R34's values whatever the state is, and the outputs of the next cycle read
them. -/
theorem resetCycle_holds : Obligations.ResetCycle := by
  unfold Obligations.ResetCycle
  intro s hl hc hr
  refine ⟨⟨_, step_of_rst_of_built hl hc hr, rfl, rfl, rfl, rfl, rfl, rfl, ⟨rfl, rfl⟩, rfl, ?_, fun u hu => ?_⟩,
    fun k es t h hes => ?_⟩
  · exact outputsOf_eq s false false 0
  · exact ⟨step_outputs_empty hu, step_outputs_txie hu, txIrq_of_txie_false rfl hu⟩
  · obtain ⟨hhead, hcount, htxie, hslots, hparams, hinit⟩ := resetOf_trace h hes
    exact ⟨hhead, hcount, htxie, hslots, hparams, hinit⟩

/-- Settles O24: the queue is empty after the edge, so all that is delivered from then on was accepted from then on
(R91). -/
theorem resetDiscardsTheQueue : Obligations.ResetDiscardsTheQueue := by
  unfold Obligations.ResetDiscardsTheQueue
  intro s t hr h
  refine ⟨(queue_of_step_rst hr h).1, ?_, fun k es u hs htr hes => ?_⟩
  · obtain ⟨-, -, rfl⟩ := step_of_rst_cases hr h
    rfl
  · obtain ⟨hbal, -⟩ := unitsAreDeliveredInTheOrderAccepted s t k es u hs hr h htr hes
    rw [← step_params h]
    exact ⟨queue u, hbal.symm⟩

/-! What each side sees, and when (R154 to R157). -/

/-- R22 of a cycle with RST = 0, by its two outcomes. -/
theorem step_count {s t : State} (hr : (sample s).rst = false) (h : step s = .next t) :
    t.count + t.outputs.deqOk.toNat = s.count + t.outputs.enqOk.toNat :=
  ((headAndCountFollowTheOutcomes s t h).2 hr).2

/-- An empty queue with `txie` clear stays so in a cycle that accepts no unit: a dequeue of it finds nothing. -/
theorem step_keeps_empty_and_txie {s t : State} (h0 : s.count = 0) (htxie : s.txie = false) (h : step s = .next t)
    (hok : t.outputs.enqOk = false) : t.count = 0 ∧ t.txie = false := by
  cases hr : (sample s).rst with
  | true =>
    have hreset := resetOf_step hr h
    exact ⟨hreset.count, hreset.txie⟩
  | false =>
    have hcount := step_count hr h
    rw [h0, hok, Bool.toNat_false] at hcount
    have h0' : t.count = 0 := by omega
    exact ⟨h0', by simp [step_txie hr h, txieNext, h0', htxie]⟩

/-- Settles O45: with no unit accepted, the empty queue and the clear `txie` of the reset edge stay, and they gate
TX_IRQ in every cycle. -/
theorem noInterruptBeforeTheFirstAcceptedEnqueue : Obligations.NoInterruptBeforeTheFirstAcceptedEnqueue := by
  unfold Obligations.NoInterruptBeforeTheFirstAcceptedEnqueue
  intro s0 s k es t u hr hs h hes hu
  have hreset := resetOf_step hr hs
  obtain ⟨⟨-, htxie⟩, hirq⟩ := trace_induction_of_events (R := fun e => e.outputs.enqOk = false)
    (P := fun v => v.count = 0 ∧ v.txie = false) (Q := fun e => e.outputs.txIrq = false)
    (fun v w ⟨h0, htxie⟩ hw hok => ⟨step_keeps_empty_and_txie h0 htxie hw hok, txIrq_of_txie_false htxie hw⟩)
    ⟨hreset.count, hreset.txie⟩ h hes
  exact ⟨hirq, txIrq_of_txie_false htxie hu⟩

/-- Settles O44: by R22, `count` falls in a cycle with a successful dequeue only and rises in one with an accepted
enqueue only. -/
theorem eachSidesViewIsStable : Obligations.EachSidesViewIsStable := by
  unfold Obligations.EachSidesViewIsStable
  refine ⟨fun k s es t r hs h hseen hes => ?_, fun k s es t hs h hroom hes => ?_⟩
  · have h0 : s.count ≠ 0 := by
      rcases hseen with hempty | hirq
      · simpa [emptyFlag] using hempty
      · exact of_decide_eq_true (hs.txie_eq ▸ (Bool.and_eq_true_iff.1 hirq).1)
    refine trace_keeps_of_events (P := fun u => u.count ≠ 0) (fun u v hu hv ⟨hr, hd⟩ => ?_) h0 h hes
    have hcount := step_count hr hv
    rw [hd, Bool.toNat_false] at hcount
    omega
  · have hlt : s.count < s.params.cap := lt_of_le_of_ne hs.ready.count_le hroom
    refine Nat.ne_of_lt (trace_keeps_of_events (P := fun u => u.count < u.params.cap)
      (fun u v hu hv ⟨hr, he⟩ => ?_) hlt h hes)
    have hcount := step_count hr hv
    rw [he, Bool.toNat_false] at hcount
    rw [step_params hv]
    omega

/-- A unit enqueued on an empty queue is the one at `head` in the next cycle. -/
theorem slotRead_head_clockEdge_enq_of_empty {s : State} (hr : Ready s) (hs : Shaped s) (h0 : s.count = 0) (v : Word)
    (q : Bool) : slotRead (clockEdge s q (coreOf s (.enq v))) s.head = v := by
  have ht : tail s = s.head := by rw [tail, h0, Nat.add_zero, Nat.mod_eq_of_lt hr.head_lt]
  have hread := slotRead_clockEdge_tail (hs.length ▸ tail_lt hr.legal.1)
    (acceptedUnit_enq (h0 ▸ hr.legal.1 : s.count < s.params.cap) v) q
  rwa [ht] at hread

/-- Settles O42: a cycle's outcomes read the queue at its start, and the next cycle's read what the edge left. -/
theorem enqueueToDequeueLatency : Obligations.EnqueueToDequeueLatency := by
  unfold Obligations.EnqueueToDequeueLatency
  refine ⟨fun s v v' hs => ?_, fun s v hs hshape h0 => ?_, fun s v hs hc => ?_, fun s v hs hf => ?_⟩
  · refine ⟨_, _, exec_of_ready hs (.enqdeq v), exec_of_ready hs (.enqdeq v'), by simp, by simp, fun h0 => ?_,
      fun hf => ?_⟩
    · simp [delivers_of_empty h0]
    · simp [acceptedUnit_of_full hf, delivers_deq (hf ▸ hs.legal.1 : 0 < s.count)]
  · have ha := acceptedUnit_enq (h0 ▸ hs.legal.1 : s.count < s.params.cap) v
    have hd : delivers (clockEdge s (deqReqOf (.enq v)) (coreOf s (.enq v))) .deq = true :=
      delivers_deq (by simp [ha])
    refine ⟨_, _, exec_of_ready hs (.enq v), exec_of_ready (clockEdge_keeps_ready hs _ _) .deq, by simp [ha],
      by simp [hd], ?_⟩
    simp [hd, slotRead_head_clockEdge_enq_of_empty hs hshape h0]
  · have ha := acceptedUnit_enq hc v
    have htxie := clockEdge_txie_of_accepted ha (deqReqOf (.enq v))
    refine ⟨_, exec_of_ready hs (.enq v), emptyFlag_eq s, rfl, rfl, fun u hu => ⟨?_, ?_, ?_⟩⟩
    · rw [step_outputs_empty hu]
      simp [emptyFlag, ha]
    · rw [step_outputs_txie hu, htxie]
    · rw [step_outputs_txIrq hu, htxie, Bool.true_and]
  · have hpos : 0 < s.params.cap := hs.legal.1
    have hd : delivers s .deq = true := delivers_deq (hf ▸ hpos)
    have ha : acceptedUnit (clockEdge s (deqReqOf .deq) (coreOf s .deq)) (.enq v) = some v :=
      acceptedUnit_enq (by simp [hd, hf, hpos]) v
    exact ⟨_, _, exec_of_ready hs .deq, exec_of_ready (clockEdge_keeps_ready hs _ _) (.enq v), by simp [hd],
      by simp [ha]⟩

/-- A dequeue that finds the queue empty and `txie` clear changes nothing of the block. -/
theorem exists_exec_deq_sameBlock {s : State} (hs : Ready s) (h0 : s.count = 0) (htxie : s.txie = false) :
    ∃ t, exec .deq s = .next t ∧ t.outputs.deqOk = false ∧ SameBlock s t := by
  have hd := delivers_of_empty h0 .deq
  refine ⟨_, exec_of_ready hs .deq, by simp [hd], ?_⟩
  constructor <;> simp [hd, h0, htxie, txieNext]

/-- Settles O43: TX_IRQ reads `txie` at the start of the cycle; the dequeue of the last unit and a reset edge both
clear it. -/
theorem txIrqLagsByOneCycle : Obligations.TxIrqLagsByOneCycle := by
  unfold Obligations.TxIrqLagsByOneCycle
  refine ⟨fun s hs h1 => ?_, fun s hs h0 hr => ?_⟩
  · have hset : s.txie = true := by simp [hs.txie_eq, h1]
    obtain ⟨t, ht, -, -, hcount, htxie, -, -, -, hout⟩ :=
      exists_exec_of_dequeue_alone hs.ready (acceptedUnit_deq s) (delivers_deq (by omega))
    have hready : Ready t := (exec_eq_next.1 ht).2 ▸ clockEdge_keeps_ready hs.ready _ _
    rw [h1] at hcount htxie
    refine ⟨t, ht, ?_, fun u => txIrq_of_txie_false htxie, exists_exec_deq_sameBlock hready hcount htxie⟩
    rw [hout, hset, Bool.true_and]
  · have hset : s.txie = true := by simp [hs.txie_eq, h0]
    obtain ⟨t, ht⟩ := exists_step_of_ready hs.ready
    refine ⟨t, ht, ?_, fun u => txIrq_of_txie_false (resetOf_step hr ht).txie⟩
    rw [step_outputs_txIrq ht, hset, Bool.true_and]

end Sys2Proof.Machine
end

/-! Proofs about what the spec leaves open (spec/93_implementation_defined.md): the refusal of indices out of range
(U3). -/

section
namespace Sys2Proof.Machine

/-- The indices are judged last, and one of them out of range is enough. -/
theorem cycleRefusal_of_outOfRange {s : State} (hl : s.params.Legal) (hc : s.params.Spsc) (hi : s.initialized = true)
    (hout : s.params.cap ≤ s.head ∨ s.params.cap < s.count) : cycleRefusal s = some .stateOutOfRange := by
  have hrange : ¬ (s.head < s.params.cap ∧ s.count ≤ s.params.cap) := by omega
  simp [cycleRefusal, buildRefusal_eq_none.2 ⟨hl, hc⟩, hi, hrange]

/-- Settles O28: such a block is past the refusals of the build and of R152, so the indices decide, for an instruction
and for a cycle with RST = 0 alike. -/
theorem indicesOutOfRangeAreRefused : Obligations.IndicesOutOfRangeAreRefused := by
  unfold Obligations.IndicesOutOfRangeAreRefused
  intro s hl hc hi hout
  have hexec : ∀ i, exec i s = .refused .stateOutOfRange :=
    fun i => exec_eq_refused.2 (cycleRefusal_of_outOfRange hl hc hi hout)
  exact ⟨hexec, fun hr => by rw [step_of_not_rst hr, hexec]⟩

end Sys2Proof.Machine
end
